-- ==== Sys2Proof/Word.lean ====
section
/-! DEFINITION. The widths of the values the block handles (spec/00_scope.md rules R6, R8): words, bytes, slot
numbers, byte counters, blocks, digests and host regions. -/

namespace Sys2Proof

/-- "A 'word' is an unsigned 32-bit value" (R8): the state words, the command word and the OFFSET and LENGTH ports. -/
abbrev Word := BitVec 32

/-- "A 'byte' is an unsigned 8-bit value" (R8). -/
abbrev Byte := BitVec 8

/-- A slot number as the command word carries it: an unsigned 8-bit field (R72, R85). -/
abbrev Slot := BitVec 8

/-- `totalBytes`: an unsigned 64-bit count taken modulo 2^64 (R20, R24). -/
abbrev ByteCount := BitVec 64

/-- A 64-byte block, and the 64-byte buffer of a context (R6, R20). -/
abbrev Block := Vector Byte 64

/-- The sixteen message words `m[0..15]` of one block (R131). -/
abbrev MessageWords := Vector Word 16

/-- The 16-byte digest, and the DATA field of a response (R6, R86). -/
abbrev DigestBytes := Vector Byte 16

/-- A host region: "a finite byte sequence", possibly empty (R80, R81). Its extent `|r|` is its length. -/
abbrev Region := List Byte

end Sys2Proof
end

