-- ==== Sys2Proof/Config.lean ====
section
/-! DEFINITION. The parameters the source leaves to the implementation (spec/00_scope.md rule R7). The number of
context slots is no constant of the model: a state holds as many slots as its `slots` list is long, so a statement
about every state quantifies over `NCTX` (92_eei_decisions.md D3). Only the state after reset must name one. -/

namespace Sys2Proof.Config

/-- The number of slots of `State.reset`. DESIGN CHOICE (log entry 1): R7 leaves `NCTX` open between 1 and 256;
2 is the value the spec's decoding vectors and programs use (95_test_vectors.md §2.1, §3). -/
def nctx : Nat := 2

/-- The largest `NCTX` the spec admits (R7, R21). -/
def maxContexts : Nat := 256

/-- `MAX_EXTENT`, the extent of the largest host region (R81). -/
def maxExtent : Nat := 2 ^ 31 - 1

end Sys2Proof.Config
end

