-- ==== Sys2Proof/Syntax.lean ====
section
/-! DEFINITION. The command set (spec/30_encoding.md rule R75), one constructor per row of spec/opcode_table.json,
and the named reasons for which a command word decodes to `Illegal` (rule R77). -/

namespace Sys2Proof

/-- The six commands (R75). Every command acts on slot `k` (R72). The operand ports REGION, OFFSET and LENGTH that
UPDATE and DIGEST also read are no part of the command word (R80): they are `Machine.State.ports`. -/
inductive Instr where
  /-- UPDATE: absorb LENGTH bytes of REGION from OFFSET into slot `k` (R103). -/
  | update (k : Slot)
  /-- UPDATE_BYTE: absorb the byte `v` of the command word into slot `k` (R105). -/
  | updateByte (k : Slot) (v : Byte)
  /-- DIGEST: finalize slot `k` and write its digest into REGION at OFFSET (R173). -/
  | digest (k : Slot)
  /-- DIGEST16: finalize slot `k` and return its digest in the response (R175). -/
  | digest16 (k : Slot)
  /-- RESET: return slot `k` to its creation-time values (R106). -/
  | reset (k : Slot)
  /-- CLONE: copy slot `k` into slot `d` (R107). -/
  | clone (k d : Slot)
  deriving DecidableEq, Repr

/-- Why a command word is `Illegal` (R77). The host sees one status for all of them (R76, R204). -/
inductive Illegal where
  /-- `rsv = word[31:24]` is not zero (R74). -/
  | reservedFieldSet
  /-- `opc = word[7:0]` is not one of `0x01 .. 0x06` (R75). -/
  | reservedOpcode
  /-- `aux = word[23:16]` is not zero on UPDATE, DIGEST, DIGEST16 or RESET (R73). -/
  | auxFieldSet
  /-- `ctx >= NCTX` (R85). -/
  | slotOutOfRange
  /-- `aux >= NCTX` on CLONE (R85). -/
  | destinationOutOfRange
  deriving DecidableEq, Repr

end Sys2Proof
end

