-- ==== Sys2Proof/WellFormed.lean ====
section
/-! DEFINITION. When a command is legal on a block of `nctx` slots: "the slot numbers `ctx`, and `aux` for CLONE ...
are legal only when `< NCTX`" (spec/30_encoding.md rules R76, R85). -/

namespace Sys2Proof

/-- A slot number names one of the slots `0 .. nctx-1` (R21, R85). -/
def Slot.legal (nctx : Nat) (k : Slot) : Bool := decide (k.toNat < nctx)

/-- Every slot number of the command is legal (R76, R85). -/
def Instr.wf (nctx : Nat) : Instr → Bool
  | .update k => Slot.legal nctx k
  | .updateByte k _ => Slot.legal nctx k
  | .digest k => Slot.legal nctx k
  | .digest16 k => Slot.legal nctx k
  | .reset k => Slot.legal nctx k
  | .clone k d => Slot.legal nctx k && Slot.legal nctx d

end Sys2Proof
end

