-- ==== Sys2Proof/Decode.lean ====
section
/-! DEFINITION. Decoding of a command word, the encoder, and the pseudo-commands (spec/30_encoding.md rules R70 to R79,
R85, R87, R88). The command word arrives whole on a 32-bit port, so it has no byte order (R70, R79). -/

namespace Sys2Proof

/-- `opc = word[7:0]` (R71). -/
def opcField (w : Word) : Byte := w.extractLsb' 0 8

/-- `ctx = word[15:8]` (R72). -/
def ctxField (w : Word) : Slot := w.extractLsb' 8 8

/-- `aux = word[23:16]` (R73). -/
def auxField (w : Word) : Byte := w.extractLsb' 16 8

/-- `rsv = word[31:24]` (R74). -/
def rsvField (w : Word) : Byte := w.extractLsb' 24 8

/-- Format `CMD` (R70), from its high field to its low one. -/
def cmdWord (rsv aux : Byte) (ctx : Slot) (opc : Byte) : Word := rsv ++ aux ++ ctx ++ opc

/-- The commands whose only operand in the word is the slot: `aux` must be zero and the slot legal (R73, R76). -/
def decodeSlotOnly (nctx : Nat) (w : Word) (command : Slot → Instr) : Except Illegal Instr :=
  if auxField w ≠ 0 then .error .auxFieldSet
  else if Slot.legal nctx (ctxField w) = false then .error .slotOutOfRange
  else .ok (command (ctxField w))

/-- UPDATE_BYTE: `aux` is the byte to absorb, any pattern (R73, R76). -/
def decodeUpdateByte (nctx : Nat) (w : Word) : Except Illegal Instr :=
  if Slot.legal nctx (ctxField w) = false then .error .slotOutOfRange
  else .ok (.updateByte (ctxField w) (auxField w))

/-- CLONE: `aux` is the destination slot, legal only below `NCTX` (R73, R76). -/
def decodeClone (nctx : Nat) (w : Word) : Except Illegal Instr :=
  if Slot.legal nctx (ctxField w) = false then .error .slotOutOfRange
  else if Slot.legal nctx (auxField w) = false then .error .destinationOutOfRange
  else .ok (.clone (ctxField w) (auxField w))

/-- `decode(word, NCTX)`, total on every 32-bit word (R76). `Illegal` carries which check of R77 failed. -/
def decode (nctx : Nat) (w : Word) : Except Illegal Instr :=
  if rsvField w ≠ 0 then .error .reservedFieldSet
  else if opcField w = 0x01 then decodeSlotOnly nctx w .update
  else if opcField w = 0x02 then decodeUpdateByte nctx w
  else if opcField w = 0x03 then decodeSlotOnly nctx w .digest
  else if opcField w = 0x04 then decodeSlotOnly nctx w .digest16
  else if opcField w = 0x05 then decodeSlotOnly nctx w .reset
  else if opcField w = 0x06 then decodeClone nctx w
  else .error .reservedOpcode

/-- The command word of a command, from the encoding strings of R75. -/
def encode : Instr → Word
  | .update k => cmdWord 0 0 k 0x01
  | .updateByte k v => cmdWord 0 v k 0x02
  | .digest k => cmdWord 0 0 k 0x03
  | .digest16 k => cmdWord 0 0 k 0x04
  | .reset k => cmdWord 0 0 k 0x05
  | .clone k d => cmdWord 0 d k 0x06

/-- The mask of the command's row in the opcode map: which bits of its word are fixed (R75). -/
def tableMask : Instr → Word
  | .update _ => 0xFFFF00FF
  | .updateByte _ _ => 0xFF0000FF
  | .digest _ => 0xFFFF00FF
  | .digest16 _ => 0xFFFF00FF
  | .reset _ => 0xFFFF00FF
  | .clone _ _ => 0xFF0000FF

/-- The match value of the command's row in the opcode map (R75). -/
def tableMatch : Instr → Word
  | .update _ => 0x00000001
  | .updateByte _ _ => 0x00000002
  | .digest _ => 0x00000003
  | .digest16 _ => 0x00000004
  | .reset _ => 0x00000005
  | .clone _ _ => 0x00000006

/-- The command word in the opcode table's numbering: bit 0 is the least significant (R8), and a bit at or above
`nbits` is 0. -/
def wordOfTable (nbits w : Nat) : Word := BitVec.ofNat 32 (w % 2 ^ nbits)

/-- What the decoder reads from a table word, on the largest block the spec admits (`NCTX = 256`), where every 8-bit
slot number is legal (R21, R85). -/
def decodeTableWord (nbits w : Nat) : Option Instr := (decode Config.maxContexts (wordOfTable nbits w)).toOption

/-- A slot operand in assembler syntax: `c<k>` with `k` decimal (R87). -/
def Slot.toAsm (k : Slot) : String := "c" ++ toString k.toNat

/-- A command in assembler syntax, with the name of its region and its OFFSET and LENGTH read as signed (R87). -/
def Instr.toAsm (region : String) (off len : Int) : Instr → String
  | .update k => "UPDATE " ++ k.toAsm ++ ", @" ++ region ++ ", " ++ toString off ++ ", " ++ toString len
  | .updateByte k v => "UPDATE_BYTE " ++ k.toAsm ++ ", " ++ toString v.toNat
  | .digest k => "DIGEST " ++ k.toAsm ++ ", @" ++ region ++ ", " ++ toString off ++ ", " ++ toString len
  | .digest16 k => "DIGEST16 " ++ k.toAsm
  | .reset k => "RESET " ++ k.toAsm
  | .clone k d => "CLONE " ++ k.toAsm ++ ", " ++ Slot.toAsm d

end Sys2Proof
end

