-- ==== Sys2Proof/Machine/State.lean ====
section
/-! DEFINITION. The machine's state as plain data (spec/10_state.md), the host interface it is driven through
(spec/30_encoding.md rules R70, R80, R86), and the state after power-on (rules R33, R34, R230). -/

namespace Sys2Proof.Machine

/-- The four state words of a context: "the running hash accumulator" (R20). -/
structure HashState where
  A : Word
  B : Word
  C : Word
  D : Word
  deriving DecidableEq, Repr

/-- `IV`, the fixed initial constants (R33, R35). -/
def HashState.iv : HashState := ⟨0x67452301, 0xefcdab89, 0x98badcfe, 0x10325476⟩

/-- A DigestContext: "exactly these fields" (R20). `bufferLength` is 6 bits wide, so it is never 64 (R23). -/
structure Context where
  state : HashState
  buf : Block
  bufferLength : Fin 64
  totalBytes : ByteCount
  deriving DecidableEq, Repr

/-- The creation-time record: the value of a slot at power-on, after RESET and after a successful digest (R33). -/
def Context.reset : Context :=
  { state := HashState.iv, buf := Vector.replicate 64 0, bufferLength := 0, totalBytes := 0 }

/-- The names of the status codes (R200); their numbers are `Status.code`. -/
inductive Status where
  /-- Success. -/
  | ok
  /-- UPDATE's region check failed (R201). -/
  | bufferBoundsError
  /-- DIGEST was asked for fewer than 16 bytes (R202). -/
  | partialDigestUnsupportedError
  /-- DIGEST was given fewer than 16 bytes of room (R203). -/
  | insufficientOutputSpaceError
  /-- The command word does not decode (R204). -/
  | illegalCommand
  deriving DecidableEq, Repr

/-- The operand ports that stand beside the command word (R80): REGION, OFFSET and LENGTH. -/
structure Ports where
  region : Region
  offset : Word
  length : Word
  deriving DecidableEq, Repr

/-- One command as the host issues it: the command word and the operand ports (R70, R80). -/
structure Command where
  word : Word
  ports : Ports
  deriving DecidableEq, Repr

/-- What every command ends with: STATUS, COUNT, DATA and REGION' (R86). -/
structure Response where
  status : Status
  count : Word
  data : DigestBytes
  region : Region
  deriving DecidableEq, Repr

/-- The block and its host interface. The block's own state is `slots` (R20, R21); the rest is what stands on its
interface. The transient compressor registers of R31 hold no value between commands (R232), so a state, which is
always a command boundary (R57), has no field for them: they are `CompressorRegs` of Machine/Compressor.lean. -/
structure State where
  /-- `ctx[0] .. ctx[NCTX-1]` (R21). Its length is `NCTX`. -/
  slots : List Context
  /-- The operand ports of the command last accepted (R80). -/
  ports : Ports
  /-- The commands the host has issued and the block has not yet accepted, oldest first (R61). -/
  commands : List Command
  /-- The responses given so far, one per command, oldest first (R86, R242). No command reads them (R29). -/
  responses : List Response
  deriving DecidableEq, Repr

/-- `NCTX`, the number of context slots of this block (R21). -/
def State.nctx (s : State) : Nat := s.slots.length

/-- Why a step would stop the machine. The block has no such reason: an error is a status in a response, after which
the block accepts the next command (R206, R207, R208), and every command completes (R242). Nothing raises a fault. -/
inductive Fault where
  deriving DecidableEq, Repr

/-- Why a command would have no meaning in this model. -/
inductive Refusal where
  /-- Raised only by an arm of `exec` whose instruction has no meaning yet; safe, the run ends. No arm raises it. -/
  | notModelled (mnemonic : String)
  deriving DecidableEq, Repr

/-- A block of `n` slots after power-on: every slot holds its creation-time record, "no command is in progress and no
response is pending" (R34, R230). The operand ports are inputs for which the spec gives no reset value: DESIGN CHOICE
(log entry 2), an empty region and zeros. -/
def State.powerOn (n : Nat) : State :=
  { slots := List.replicate n Context.reset
    ports := { region := [], offset := 0, length := 0 }
    commands := []
    responses := [] }

/-- The machine right after reset: power-on (R230) of a block of `Config.nctx` slots. -/
def State.reset : State := State.powerOn Config.nctx

end Sys2Proof.Machine
end

