-- ==== Sys2Proof/Machine/Ops.lean ====
section
/-! DEFINITION. The named operations shared by the commands: the word operators and byte-order helpers
(spec/00_scope.md rules R9, R11), the accesses to host regions (spec/20_memory.md rules R52, R53), the access to a
context slot, and what ends a command: its response (spec/30_encoding.md rule R86) or an error
(spec/60_exceptions.md rule R206). The block has no trap and no return from one (R207, R208): an error is taken by
`raise` alone, and the next command is accepted with no recovery step. -/

namespace Sys2Proof.Machine

/-- `rotl32(x, n)` for `0 < n < 32` (R9). -/
def rotl32 (x : Word) (n : Nat) : Word := (x <<< n) ||| (x >>> (32 - n))

/-- `le32(b0, b1, b2, b3) = {b3, b2, b1, b0}` (R11). -/
def le32 (b0 b1 b2 b3 : Byte) : Word := b3 ++ b2 ++ b1 ++ b0

/-- `le32bytes(w) = [w[7:0], w[15:8], w[23:16], w[31:24]]` (R11). -/
def le32bytes (w : Word) : Vector Byte 4 :=
  #v[w.extractLsb' 0 8, w.extractLsb' 8 8, w.extractLsb' 16 8, w.extractLsb' 24 8]

/-- `le64bytes(q)`: 8 bytes, least significant first (R11). -/
def le64bytes (q : BitVec 64) : Vector Byte 8 :=
  #v[q.extractLsb' 0 8, q.extractLsb' 8 8, q.extractLsb' 16 8, q.extractLsb' 24 8,
     q.extractLsb' 32 8, q.extractLsb' 40 8, q.extractLsb' 48 8, q.extractLsb' 56 8]

/-! ### Host regions -/

/-- The well-formed regions: an extent of at most `MAX_EXTENT` (R80, R81). A region is the plain sequence of its bytes,
so equal regions are equal data and there is no other form to keep. -/
def Memory.wf (r : Region) : Bool := decide (r.length ≤ Config.maxExtent)

/-- `SrcRead(r, i)`: byte `i` of the region, for `0 <= i < |r|` (R52); outside the region there is no byte. -/
def srcRead (r : Region) (i : Nat) : Option Byte := r[i]?

/-- The bytes `off .. off + len - 1` of a source region, in increasing index, each read once (R52, R103). -/
def sourceBytes (r : Region) (off len : Nat) : List Byte := (r.drop off).take len

/-- `OutWrite(r, i, v)`: byte `v` at index `i` of the region (R53); outside the region there is no byte to write. -/
def outWrite (r : Region) (i : Nat) (v : Byte) : Region := r.set i v

/-- `OutWrite(r, off + i, vs[i])` for each `i`, in increasing index (R173). -/
def outWriteAll : Region → Nat → List Byte → Region
  | r, _, [] => r
  | r, off, v :: vs => outWriteAll (outWrite r off v) (off + 1) vs

/-! ### Context slots -/

/-- `ctx[k]`, when `k < NCTX` (R12, R21). -/
def State.slot? (s : State) (k : Slot) : Option Context := s.slots[k.toNat]?

/-- `ctx[k] <- c`: slot `k` alone changes, since "the slots share no storage" (R21). -/
def State.setSlot (s : State) (k : Slot) (c : Context) : State := { s with slots := s.slots.set k.toNat c }

/-! ### Ending a command -/

/-- The DATA field of every response but DIGEST16's: 16 zero bytes (R86). -/
def zeroData : DigestBytes := Vector.replicate 16 0

/-- `respond(status, count, data)`, with REGION' (R12, R86): the command's one response (R242). -/
def respond (status : Status) (count : Word) (data : DigestBytes) (region : Region) (s : State) : State :=
  { s with responses := s.responses ++ [{ status, count, data, region }] }

/-- The response of an accepted UPDATE, UPDATE_BYTE, RESET or CLONE: `respond(OK, 0, 16 x 0x00)`, REGION unchanged
(R86). -/
def respondDone (s : State) : State := respond .ok 0 zeroData s.ports.region s

/-- `raise E`: the command ends with `respond(E, 0, 16 x 0x00)`; no slot and no byte of a region changes (R206). -/
def raise (e : Status) (s : State) : State := respond e 0 zeroData s.ports.region s

/-- A command on slot `k`: `body` on the slot's record; where `k >= NCTX` there is no slot, and the command is answered
with `IllegalCommand` (R76, R77, R204). -/
def withSlot (k : Slot) (s : State) (body : Context → State) : State :=
  match s.slot? k with
  | some c => body c
  | none => raise .illegalCommand s

/-! ### The command port -/

/-- The port takes the next command of the host's stream: its operands stand on the ports while it runs (R61, R80). -/
def accept (c : Command) (rest : List Command) (s : State) : State := { s with ports := c.ports, commands := rest }

/-- With no command issued the block is idle, "and its slots keep their values indefinitely" (R216). -/
def idle (s : State) : State := s

end Sys2Proof.Machine
end

