-- ==== Sys2Proof/Machine/Compressor.lean ====
section
/-! DEFINITION. The block compressor (spec/41_compressor.md): the message words, the mixing functions, the schedule, the
step-level compressor unit with its transient registers (rules R31, R146), and `compress` (rule R145). The host cannot
call it (rule R89); `absorb` does. -/

namespace Sys2Proof.Machine

/-- Message words: `m[i] = le32(blk[4i], blk[4i+1], blk[4i+2], blk[4i+3])` (R131). -/
def messageWords (blk : Block) : MessageWords :=
  Vector.ofFn fun i : Fin 16 => le32 blk[4 * i.val] blk[4 * i.val + 1] blk[4 * i.val + 2] blk[4 * i.val + 3]

/-- Round 1: `F(x, y, z) = (x AND y) OR ((NOT x) AND z)` (R132). -/
def mixF (x y z : Word) : Word := (x &&& y) ||| (~~~x &&& z)

/-- Round 2: `G(x, y, z) = (x AND z) OR (y AND (NOT z))` (R133). -/
def mixG (x y z : Word) : Word := (x &&& z) ||| (y &&& ~~~z)

/-- Round 3: `H(x, y, z) = x XOR y XOR z` (R134). -/
def mixH (x y z : Word) : Word := x ^^^ y ^^^ z

/-- Round 4: `I(x, y, z) = y XOR (x OR (NOT z))` (R135). -/
def mixI (x y z : Word) : Word := y ^^^ (x ||| ~~~z)

/-- The mixing function of step `j` (R139). -/
def mixFn (j : Fin 64) : Word → Word → Word → Word :=
  if j.val < 16 then mixF else if j.val < 32 then mixG else if j.val < 48 then mixH else mixI

/-- The message index `g(j)` (R136), with `j` the global step (92_eei_decisions.md D23). -/
def messageIndex (j : Fin 64) : Fin 16 :=
  if j.val < 16 then Fin.ofNat 16 j.val
  else if j.val < 32 then Fin.ofNat 16 (5 * j.val + 1)
  else if j.val < 48 then Fin.ofNat 16 (3 * j.val + 5)
  else Fin.ofNat 16 (7 * j.val)

/-- The rotations of each round, in the order the round cycles through them (R137). -/
def rotationTable : Vector (Vector Nat 4) 4 :=
  #v[#v[7, 12, 17, 22], #v[5, 9, 14, 20], #v[4, 11, 16, 23], #v[6, 10, 15, 21]]

/-- The rotation amount `s(j) = ROT[j div 16][j mod 4]` (R137). -/
def rotationAmount (j : Fin 64) : Nat := rotationTable[j.val / 16][j.val % 4]

/-- Round constants `T[0..15]` (R138). -/
def roundConstants1 : Vector Word 16 :=
  #v[0xd76aa478, 0xe8c7b756, 0x242070db, 0xc1bdceee, 0xf57c0faf, 0x4787c62a, 0xa8304613, 0xfd469501,
     0x698098d8, 0x8b44f7af, 0xffff5bb1, 0x895cd7be, 0x6b901122, 0xfd987193, 0xa679438e, 0x49b40821]

/-- Round constants `T[16..31]` (R138). -/
def roundConstants2 : Vector Word 16 :=
  #v[0xf61e2562, 0xc040b340, 0x265e5a51, 0xe9b6c7aa, 0xd62f105d, 0x02441453, 0xd8a1e681, 0xe7d3fbc8,
     0x21e1cde6, 0xc33707d6, 0xf4d50d87, 0x455a14ed, 0xa9e3e905, 0xfcefa3f8, 0x676f02d9, 0x8d2a4c8a]

/-- Round constants `T[32..47]` (R138). -/
def roundConstants3 : Vector Word 16 :=
  #v[0xfffa3942, 0x8771f681, 0x6d9d6122, 0xfde5380c, 0xa4beea44, 0x4bdecfa9, 0xf6bb4b60, 0xbebfbc70,
     0x289b7ec6, 0xeaa127fa, 0xd4ef3085, 0x04881d05, 0xd9d4d039, 0xe6db99e5, 0x1fa27cf8, 0xc4ac5665]

/-- Round constants `T[48..63]` (R138). -/
def roundConstants4 : Vector Word 16 :=
  #v[0xf4292244, 0x432aff97, 0xab9423a7, 0xfc93a039, 0x655b59c3, 0x8f0ccc92, 0xffeff47d, 0x85845dd1,
     0x6fa87e4f, 0xfe2ce6e0, 0xa3014314, 0x4e0811a1, 0xf7537e82, 0xbd3af235, 0x2ad7d2bb, 0xeb86d391]

/-- The round constant `T[j]`; the table of R138 is normative. -/
def roundConstant (j : Fin 64) : Word :=
  #v[roundConstants1, roundConstants2, roundConstants3, roundConstants4][j.val / 16][j.val % 16]

/-- The working variables `a, b, c, d` (R31). -/
structure WorkingVars where
  a : Word
  b : Word
  c : Word
  d : Word
  deriving DecidableEq, Repr

/-- Step `j` on the working variables (R141): `temp <- a + fn(j)(b, c, d) + m[g(j)] + T[j]`,
`new <- b + rotl32(temp, s(j))`, then `(a, b, c, d) <- (d, new, b, c)` at once. The first addend is `a`
(90_conflicts.md C1). -/
def compressStep (m : MessageWords) (w : WorkingVars) (j : Fin 64) : WorkingVars :=
  { a := w.d
    b := w.b + rotl32 (w.a + mixFn j w.b w.c w.d + m.get (messageIndex j) + roundConstant j) (rotationAmount j)
    c := w.b
    d := w.c }

/-- The transient registers of the compressor unit: the message words, the working variables and the step index
`j`, 0..64 (R31). They exist only while a compression runs. -/
structure CompressorRegs where
  m : MessageWords
  w : WorkingVars
  j : Nat
  deriving DecidableEq, Repr

/-- The registers at the start of a compression, before step 0: seeded from the block and from the state words
(R31, R131, R140). -/
def CompressorRegs.start (st : HashState) (blk : Block) : CompressorRegs :=
  { m := messageWords blk, w := ⟨st.A, st.B, st.C, st.D⟩, j := 0 }

/-- One step of the unit (R141, R146); after step 63 there is no further step. -/
def CompressorRegs.tick (r : CompressorRegs) : CompressorRegs :=
  if h : r.j < 64 then { r with w := compressStep r.m r.w ⟨r.j, h⟩, j := r.j + 1 } else r

/-- `n` steps of the unit. -/
def CompressorRegs.run : Nat → CompressorRegs → CompressorRegs
  | 0, r => r
  | n + 1, r => CompressorRegs.run n r.tick

/-- Feed-forward: the working variables are added to the pre-block state words (R142). -/
def feedForward (st : HashState) (w : WorkingVars) : HashState :=
  { A := st.A + w.a, B := st.B + w.b, C := st.C + w.c, D := st.D + w.d }

/-- `compress(st, blk)` (R130, R145): the 64 steps of the unit, then the feed-forward. Irreducible, so that the elaborator
does not run 64 steps where a proof only compares states; the kernel still computes it, and `compress_eq` states it. -/
@[irreducible] def compress (st : HashState) (blk : Block) : HashState :=
  feedForward st (CompressorRegs.run 64 (CompressorRegs.start st blk)).w

end Sys2Proof.Machine
end

