-- ==== Sys2Proof/Machine/Operands.lean ====
section
/-! DEFINITION. The operand ports as UPDATE and DIGEST read them (spec/30_encoding.md rules R80 to R84). The slot number
and the byte of UPDATE_BYTE come with the decoded command (rule R85). -/

namespace Sys2Proof.Machine

/-- `sext_32`: a 32-bit operand read as a signed integer in `-2^31 .. 2^31 - 1` (R10, R84). -/
def sext32 (w : Word) : Int := w.toInt

/-- `off = sext_32(OFFSET)` (R84). -/
def State.off (s : State) : Int := sext32 s.ports.offset

/-- `len = sext_32(LENGTH)` (R84). -/
def State.len (s : State) : Int := sext32 s.ports.length

/-- `|r|` of the REGION port (R12, R81). -/
def State.extent (s : State) : Nat := s.ports.region.length

end Sys2Proof.Machine
end

