-- ==== Sys2Proof/Machine/Flags.lean ====
section
/-! DEFINITION. The block has no flags, condition codes or predicates (spec/10_state.md rule R29). What a command reports
instead is the status of its response (spec/60_exceptions.md rules R200 to R205), computed here. -/

namespace Sys2Proof.Machine

/-- The STATUS byte (R200). -/
def Status.code : Status → BitVec 8
  | .ok => 0
  | .bufferBoundsError => 1
  | .partialDigestUnsupportedError => 2
  | .insufficientOutputSpaceError => 3
  | .illegalCommand => 4

/-- UPDATE's check: `BufferBoundsError` when `off < 0`, `len < 0` or `off + len > |r|`, in integers (R103, R201). -/
def updateStatus (off len : Int) (extent : Nat) : Status :=
  if off < 0 ∨ len < 0 ∨ off + len > extent then .bufferBoundsError else .ok

/-- DIGEST's checks, in the order of R205: `PartialDigestUnsupportedError` when `len < 16` (R202), then
`InsufficientOutputSpaceError` when `off < 0`, `off > |r|` or `|r| - off < 16`, in integers (R173, R203). -/
def digestStatus (off len : Int) (extent : Nat) : Status :=
  if len < 16 then .partialDigestUnsupportedError
  else if off < 0 ∨ off > extent ∨ extent - off < 16 then .insufficientOutputSpaceError
  else .ok

end Sys2Proof.Machine
end

