-- ==== Sys2Proof/Machine/Accumulator.lean ====
section
/-! DEFINITION. The accumulator (spec/40_accumulator.md): absorb and clear, and the meanings of UPDATE, UPDATE_BYTE, RESET
and CLONE. -/

namespace Sys2Proof.Machine

/-- `clear`: `bufferLength <- 0; buf[0..63] <- 0x00` (R102). -/
def Context.clear (c : Context) : Context := { c with bufferLength := 0, buf := Vector.replicate 64 0 }

/-- `absorb(k, v)` on the slot's record: `v` goes to the end of the partial block; when that fills the block, it is
compressed and the buffer cleared (R100). `totalBytes` is not touched. -/
def Context.absorb (c : Context) (v : Byte) : Context :=
  if h : c.bufferLength.val + 1 < 64 then
    { c with buf := c.buf.set c.bufferLength.val v, bufferLength := ⟨c.bufferLength.val + 1, h⟩ }
  else
    Context.clear { c with state := compress c.state (c.buf.set c.bufferLength.val v) }

/-- Absorb a sequence of bytes, first byte first (R103, R172). -/
def Context.absorbAll (c : Context) (bs : List Byte) : Context := bs.foldl Context.absorb c

/-- `totalBytes <- (totalBytes + n) mod 2^64` (R103, R105). -/
def Context.count (c : Context) (n : Nat) : Context := { c with totalBytes := c.totalBytes + BitVec.ofNat 64 n }

/-- What an accepted UPDATE or UPDATE_BYTE does to its slot: count the bytes, then absorb them (R103, R105). -/
def Context.update (c : Context) (bs : List Byte) : Context := (c.count bs.length).absorbAll bs

/-- UPDATE (R103): after the region check, absorb the bytes `off .. off + len - 1` of REGION. -/
def execUpdate (k : Slot) (s : State) : Host.Outcome State Fault Refusal :=
  .next (withSlot k s fun c =>
    match updateStatus s.off s.len s.extent with
    | .ok => respondDone (s.setSlot k (c.update (sourceBytes s.ports.region s.off.toNat s.len.toNat)))
    | e => raise e s)

/-- UPDATE_BYTE (R105): absorb the byte carried in the command word. -/
def execUpdateByte (k : Slot) (v : Byte) (s : State) : Host.Outcome State Fault Refusal :=
  .next (withSlot k s fun c => respondDone (s.setSlot k (c.update [v])))

/-- RESET (R106): the slot returns to its creation-time values (R35). -/
def execReset (k : Slot) (s : State) : Host.Outcome State Fault Refusal :=
  .next (withSlot k s fun _ => respondDone (s.setSlot k Context.reset))

/-- CLONE (R107): slot `d` becomes a copy of slot `k`; a self-copy changes nothing. -/
def execClone (k d : Slot) (s : State) : Host.Outcome State Fault Refusal :=
  .next (withSlot k s fun c => withSlot d s fun _ =>
    if d ≠ k then respondDone (s.setSlot d c) else respondDone s)

end Sys2Proof.Machine
end

