-- ==== Sys2Proof/Machine/Finalizer.lean ====
section
/-! DEFINITION. The finalizer (spec/42_finalizer.md): padding and length encoding, serialization, and the meanings of
DIGEST and DIGEST16. -/

namespace Sys2Proof.Machine

/-- The bit length `(totalBytes * 8) mod 2^64` (R171). -/
def bitLength (n : ByteCount) : BitVec 64 := n * 8

/-- The number `z` of zero bytes in the padding (R170). -/
def zeroRun (l : Nat) : Nat := if l ≤ 55 then 55 - l else 119 - l

/-- `pad(L, n) = [0x80] ++ (z x 0x00) ++ le64bytes((n * 8) mod 2^64)` (R170). -/
def pad (l : Nat) (n : ByteCount) : List Byte :=
  [0x80] ++ List.replicate (zeroRun l) 0 ++ (le64bytes (bitLength n)).toList

/-- The four state words, each little-endian, as the 16-byte output (R174). -/
def serialize (st : HashState) : DigestBytes := le32bytes st.A ++ le32bytes st.B ++ le32bytes st.C ++ le32bytes st.D

/-- The output of `finalize(k)` (R172): absorb the padding, then serialize the state words. The slot is then reset by
the command (R172, R176). Irreducible, as `compress` is; `finalize_eq` states it. -/
@[irreducible] def Context.finalize (c : Context) : DigestBytes :=
  serialize (c.absorbAll (pad c.bufferLength.val c.totalBytes)).state

/-- DIGEST (R173): after its two checks, the digest goes to `off .. off + 15` of REGION, and the slot is reset. -/
def execDigest (k : Slot) (s : State) : Host.Outcome State Fault Refusal :=
  .next (withSlot k s fun c =>
    match digestStatus s.off s.len s.extent with
    | .ok =>
      respond .ok 16 zeroData (outWriteAll s.ports.region s.off.toNat c.finalize.toList) (s.setSlot k Context.reset)
    | e => raise e s)

/-- DIGEST16 (R175): the digest goes to DATA, COUNT is 0, and the slot is reset. -/
def execDigest16 (k : Slot) (s : State) : Host.Outcome State Fault Refusal :=
  .next (withSlot k s fun c => respond .ok 0 c.finalize s.ports.region (s.setSlot k Context.reset))

end Sys2Proof.Machine
end

