-- ==== Sys2Proof/Machine/Dispatch.lean ====
section
/-! DEFINITION. One arm per command of spec/opcode_table.json, each a call of its meaning. -/

namespace Sys2Proof.Machine

/-- The meaning of a command (R75). -/
def exec (i : Instr) (s : State) : Host.Outcome State Fault Refusal :=
  match i with
  | .update k => Sys2Proof.Machine.execUpdate k s
  | .updateByte k v => Sys2Proof.Machine.execUpdateByte k v s
  | .digest k => Sys2Proof.Machine.execDigest k s
  | .digest16 k => Sys2Proof.Machine.execDigest16 k s
  | .reset k => Sys2Proof.Machine.execReset k s
  | .clone k d => Sys2Proof.Machine.execClone k d s

end Sys2Proof.Machine
end

