-- ==== Sys2Proof/Machine/Step.lean ====
section
/-! DEFINITION. One step of the machine: the port accepts the host's next command and the command runs to its response,
as one atomic transition (spec/20_memory.md rules R57, R61). -/

namespace Sys2Proof.Machine

/-- One command, or nothing where the host has issued none. A word that decodes to `Illegal` is answered with
`IllegalCommand` and changes nothing (R76, R204). -/
def step (s : State) : Host.Outcome State Fault Refusal :=
  match s.commands with
  | [] => .next (idle s)
  | c :: rest =>
    match decode s.nctx c.word with
    | .ok i => exec i (accept c rest s)
    | .error _ => .next (raise .illegalCommand (accept c rest s))

/-- The operand ports `withFetchWord` supplies where the host has issued no command: a region of 16 zero bytes, all of
it. DESIGN CHOICE (log entry 3). -/
def fetchPorts : Ports := { region := List.replicate 16 0, offset := 0, length := 16 }

/-- `s` with the table word as the command word of the next command of the host's stream, on the operand ports that
command already has. -/
def State.withFetchWord (s : State) (nbits w : Nat) : State :=
  match s.commands with
  | [] => { s with commands := [{ word := wordOfTable nbits w, ports := fetchPorts }] }
  | c :: rest => { s with commands := { c with word := wordOfTable nbits w } :: rest }

end Sys2Proof.Machine
end

