-- ==== Sys2Proof/Machine/Pseudo.lean ====
section
/-! DEFINITION. The pseudo-commands and their expansions into commands (spec/30_encoding.md rule R88). -/

namespace Sys2Proof.Machine

/-- A command that reads no operand port; the values on the ports have no effect (R80). -/
def Command.plain (i : Instr) : Command := { word := encode i, ports := { region := [], offset := 0, length := 0 } }

/-- `UPDATE_ALL c<k>, @r` is `UPDATE c<k>, @r, 0, |r|` (R88). -/
def updateAllCommand (k : Slot) (r : Region) : Command :=
  { word := encode (.update k), ports := { region := r, offset := 0, length := BitVec.ofNat 32 r.length } }

/-- `HASH c<k>, @r` is `RESET c<k>; UPDATE c<k>, @r, 0, |r|; DIGEST16 c<k>` (R88). -/
def hashCommands (k : Slot) (r : Region) : List Command :=
  [Command.plain (.reset k), updateAllCommand k r, Command.plain (.digest16 k)]

/-- `DIGEST_INTO c<k>, @r, <off>` is `DIGEST c<k>, @r, <off>, 16` (R88). -/
def digestIntoCommand (k : Slot) (r : Region) (off : Word) : Command :=
  { word := encode (.digest k), ports := { region := r, offset := off, length := 16 } }

end Sys2Proof.Machine
end

