-- ==== Sys2Proof/Safety.lean ====
section
/-! DEFINITION. The terms in which claims about the machine are stated: its invariants (spec/10_state.md rules R21, R26,
R27), the byte sequence a slot stands for (rule R25), MD5 of a whole message, which slots a command reads and writes,
and the paths of UPDATE that the spec says are not separately observable (spec/40_accumulator.md rule R104). -/

namespace Sys2Proof.Machine

/-! ### Invariants -/

/-- The slot invariants at every command boundary: `bufferLength = totalBytes mod 64` (R26), and every buffer byte at or
above `bufferLength` is 0 (R27). `bufferLength <= 63` (R23) is in its type. -/
abbrev Context.inv (c : Context) : Prop :=
  c.bufferLength.val = c.totalBytes.toNat % 64 ∧ ∀ i : Fin 64, c.bufferLength ≤ i → c.buf[i.val] = 0

/-- The invariant of the machine: `1 <= NCTX <= 256` (R21), the slot invariants in every slot, and every region on the
interface has an extent of at most `MAX_EXTENT` (R81). -/
abbrev State.inv (s : State) : Prop :=
  (1 ≤ s.nctx ∧ s.nctx ≤ Config.maxContexts) ∧ (∀ c ∈ s.slots, c.inv) ∧
  Memory.wf s.ports.region = true ∧ (∀ c ∈ s.commands, Memory.wf c.ports.region = true) ∧
  (∀ r ∈ s.responses, Memory.wf r.region = true)

/-! ### MD5 of a whole message -/

/-- The block `S[64 i .. 64 i + 63]` of a byte sequence that has those bytes (R25). -/
def blockAt (bytes : List Byte) (i : Nat) : Block := Vector.ofFn fun j : Fin 64 => bytes.getD (64 * i + j.val) 0

/-- The fully formed 64-byte blocks of a byte sequence: `floor(|S| / 64)` of them (R25). -/
def fullBlocks (bytes : List Byte) : List Block := (List.range (bytes.length / 64)).map (blockAt bytes)

/-- `fold(compress, IV, ...)` over the full blocks of a byte sequence (R25). -/
def hashBlocks (bytes : List Byte) : HashState := (fullBlocks bytes).foldl compress HashState.iv

/-- The record of a slot that has absorbed `bytes` since its last reset (R25, R26, R27): the state words are the fold of
compress over its full blocks, and the buffer holds the rest of it, and zeros above. -/
def Represents (bytes : List Byte) (c : Context) : Prop :=
  c.state = hashBlocks bytes ∧
  c.bufferLength.val = bytes.length % 64 ∧
  c.totalBytes = BitVec.ofNat 64 bytes.length ∧
  ∀ i : Fin 64, c.buf[i.val] =
    if i.val < bytes.length % 64 then bytes.getD (64 * (bytes.length / 64) + i.val) 0 else 0

/-- A message followed by its RFC 1321 padding: `0x80`, zeros up to 56 modulo 64, then the bit length of the message
modulo 2^64, little-endian (R14, R170). -/
def padMessage (msg : List Byte) : List Byte :=
  msg ++ [0x80] ++ List.replicate ((119 - msg.length % 64) % 64) 0 ++
    (le64bytes (BitVec.ofNat 64 (msg.length * 8))).toList

/-- MD5 of a whole message, as one fold of compress over the blocks of the padded message (R1, R25, R170, R174). It is
written without `absorb`, `pad` or a buffer. -/
def md5 (msg : List Byte) : DigestBytes := serialize (hashBlocks (padMessage msg))

end Sys2Proof.Machine

/-! ### What commands read and write -/

namespace Sys2Proof

/-- The slot a command writes: `ctx`, or `aux` for CLONE (R72, R107). -/
def Instr.writes : Instr → Slot
  | .update k => k
  | .updateByte k _ => k
  | .digest k => k
  | .digest16 k => k
  | .reset k => k
  | .clone _ d => d

/-- The slots a command is on: CLONE is on both of its slots (R61). -/
def Instr.touches : Instr → List Slot
  | .update k => [k]
  | .updateByte k _ => [k]
  | .digest k => [k]
  | .digest16 k => [k]
  | .reset k => [k]
  | .clone k d => [k, d]

/-- The command reads the operand ports: "only UPDATE and DIGEST read them" (R80). -/
def Instr.readsPorts : Instr → Bool
  | .update _ => true
  | .updateByte _ _ => false
  | .digest _ => true
  | .digest16 _ => false
  | .reset _ => false
  | .clone _ _ => false

/-- `w` is the word of command `i`: it encodes `i`, it decodes to `i` where every slot `i` names exists, and on any other
block it decodes to `Illegal` (R75, R76, R85). -/
def IsWordOf (i : Instr) (w : Word) : Prop :=
  encode i = w ∧
  ∀ nctx, (i.wf nctx = true → decode nctx w = .ok i) ∧ (i.wf nctx = false → ∃ e, decode nctx w = .error e)

/-- The reserved and illegal encodings, as R77 lists them over the bits of the word. -/
abbrev ReservedWord (nctx : Nat) (w : Word) : Prop :=
  w.extractLsb' 0 8 = 0x00 ∨
  0x07 ≤ (w.extractLsb' 0 8).toNat ∨
  w.extractLsb' 24 8 ≠ 0 ∨
  (w.extractLsb' 16 8 ≠ 0 ∧
    (w.extractLsb' 0 8 = 0x01 ∨ w.extractLsb' 0 8 = 0x03 ∨ w.extractLsb' 0 8 = 0x04 ∨ w.extractLsb' 0 8 = 0x05)) ∨
  nctx ≤ (w.extractLsb' 8 8).toNat ∨
  (w.extractLsb' 0 8 = 0x06 ∧ nctx ≤ (w.extractLsb' 16 8).toNat)

end Sys2Proof

namespace Sys2Proof.Machine

/-- `n` steps from `s`, on the host's interface. -/
def run (n : Nat) (s : State) : Host.Outcome State Fault Refusal := Host.Core.run core n s

/-- Every command of the stream that decodes writes only slot `k` (R109). -/
def WritesOnly (nctx : Nat) (k : Slot) (commands : List Command) : Prop :=
  ∀ c ∈ commands, ∀ i, decode nctx c.word = .ok i → Instr.writes i = k

/-- A command that feeds the bytes `bs` to slot `k`: an UPDATE within its region's bounds or an UPDATE_BYTE (R103, R105,
R108). -/
def Feeds (nctx : Nat) (k : Slot) (c : Command) (bs : List Byte) : Prop :=
  (∃ v, decode nctx c.word = .ok (.updateByte k v) ∧ bs = [v]) ∨
  (decode nctx c.word = .ok (.update k) ∧
    0 ≤ sext32 c.ports.offset ∧ 0 ≤ sext32 c.ports.length ∧
    sext32 c.ports.offset + sext32 c.ports.length ≤ c.ports.region.length ∧
    bs = sourceBytes c.ports.region (sext32 c.ports.offset).toNat (sext32 c.ports.length).toNat)

/-- A stream of commands that feed a sequence of byte groups to slot `k`, one group a command (R108). -/
def FeedsAll (nctx : Nat) (k : Slot) : List Command → List (List Byte) → Prop
  | [], [] => True
  | c :: cs, bs :: bss => Feeds nctx k c bs ∧ FeedsAll nctx k cs bss
  | [], _ :: _ => False
  | _ :: _, [] => False

/-- The bytes each slot has absorbed since its last reset, after a command, given those before it (R25): an accepted
UPDATE or UPDATE_BYTE appends, RESET and an accepted DIGEST or DIGEST16 start afresh, CLONE copies. -/
def historyAfter (i : Instr) (s : State) (history : Nat → List Byte) (j : Nat) : List Byte :=
  match i with
  | .update k =>
    if j = k.toNat ∧ updateStatus s.off s.len s.extent = .ok then
      history j ++ sourceBytes s.ports.region s.off.toNat s.len.toNat
    else history j
  | .updateByte k v => if j = k.toNat then history j ++ [v] else history j
  | .digest k => if j = k.toNat ∧ digestStatus s.off s.len s.extent = .ok then [] else history j
  | .digest16 k => if j = k.toNat then [] else history j
  | .reset k => if j = k.toNat then [] else history j
  | .clone k d => if j = d.toNat ∧ k.toNat < s.nctx then history k.toNat else history j

/-! ### Compressions run, and the bulk path -/

/-- How many compressions absorbing `bytes` runs: one each time the buffer reaches 64 bytes (R100, R101). -/
def compressionsRun : Context → List Byte → Nat
  | _, [] => 0
  | c, v :: vs => (if c.bufferLength.val + 1 = 64 then 1 else 0) + compressionsRun (c.absorb v) vs

/-- The bytes of a list copied into the front of a cleared buffer (R104). -/
def bufferOf (bytes : List Byte) : Block := blockAt bytes 0

/-- The source's bulk path (R104): the partial block is completed from the region, then "as many complete 64-byte blocks
directly from the caller-provided region as possible" are compressed, and the trailing remainder is copied into the
buffer. Where the bytes do not fill the partial block they are appended to it. -/
def Context.absorbBulk (c : Context) (bytes : List Byte) : Context :=
  let pending := c.buf.toList.take c.bufferLength.val
  let all := pending ++ bytes
  let rest := all.drop (64 * (all.length / 64))
  { c with
    state := (fullBlocks all).foldl compress c.state
    buf := bufferOf rest
    bufferLength := Fin.ofNat 64 all.length }

end Sys2Proof.Machine
end

