-- ==== Sys2Proof/Certificates/Slice0/Obligations.lean ====
section
/-! DEFINITION. The statements about the machine, from the numbered rules of spec/. Each is a proposition; none is proved
here. -/

open Sys2Proof Sys2Proof.Machine

/-! ### Encoding -/

/-- The words of 95_test_vectors.md §2.1 decode as that table says, with `NCTX = 2`. -/
def Obligations.DecodesSpecWords : Prop :=
  decode 2 0x00000001 = .ok (.update 0) ∧ decode 2 0x00000101 = .ok (.update 1) ∧
  decode 2 0x00610002 = .ok (.updateByte 0 0x61) ∧ decode 2 0x00ff0102 = .ok (.updateByte 1 0xff) ∧
  decode 2 0x00000003 = .ok (.digest 0) ∧ decode 2 0x00000104 = .ok (.digest16 1) ∧
  decode 2 0x00000005 = .ok (.reset 0) ∧ decode 2 0x00010006 = .ok (.clone 0 1) ∧
  decode 2 0x00000006 = .ok (.clone 0 0) ∧
  decode 2 0x00000201 = .error .slotOutOfRange ∧ decode 2 0x00050001 = .error .auxFieldSet ∧
  decode 2 0x00020006 = .error .destinationOutOfRange ∧ decode 2 0x00000000 = .error .reservedOpcode ∧
  decode 2 0x00000007 = .error .reservedOpcode ∧ decode 2 0x000000ff = .error .reservedOpcode ∧
  decode 2 0x01000005 = .error .reservedFieldSet ∧ decode 2 0x80000002 = .error .reservedFieldSet

/-- Every well-formed command, with every operand value, decodes from its own word (R75, R76). -/
def Obligations.DecodeOfEncodeIsTheCommand : Prop :=
  ∀ (nctx : Nat) (i : Instr), i.wf nctx = true → decode nctx (encode i) = .ok i

/-- A word that decodes is the word of the command it decodes to, and that command is well formed: each legal word has
one meaning, and no bit of it is dropped (R75, R76). -/
def Obligations.EncodeOfDecodeIsTheWord : Prop :=
  ∀ (nctx : Nat) (w : Word) (i : Instr), decode nctx w = .ok i → encode i = w ∧ i.wf nctx = true

/-- `decode(word, NCTX)` of R76, on every word: `Illegal` on the words R77 lists, and on every other word the command of
its opcode, with `k = word[15:8]` and `aux = word[23:16]`. -/
def Obligations.DecodeIsTotalByOpcode : Prop :=
  ∀ (nctx : Nat) (w : Word),
    (ReservedWord nctx w → ∃ e, decode nctx w = .error e) ∧
    (¬ ReservedWord nctx w →
      decode nctx w = .ok (
        if w.extractLsb' 0 8 = 0x01 then .update (w.extractLsb' 8 8)
        else if w.extractLsb' 0 8 = 0x02 then .updateByte (w.extractLsb' 8 8) (w.extractLsb' 16 8)
        else if w.extractLsb' 0 8 = 0x03 then .digest (w.extractLsb' 8 8)
        else if w.extractLsb' 0 8 = 0x04 then .digest16 (w.extractLsb' 8 8)
        else if w.extractLsb' 0 8 = 0x05 then .reset (w.extractLsb' 8 8)
        else .clone (w.extractLsb' 8 8) (w.extractLsb' 16 8)))

/-- The words of a command match its row of the opcode map, and no two rows match the same word (R75). -/
def Obligations.OpcodeRowsMatchAndAreDisjoint : Prop :=
  (∀ i : Instr, encode i &&& tableMask i = tableMatch i) ∧
  (∀ (i i' : Instr) (w : Word),
    w &&& tableMask i = tableMatch i → w &&& tableMask i' = tableMatch i' → tableMatch i = tableMatch i')

/-! ### The step -/

/-- A step runs the decoded command: it takes the oldest command of the host's stream, puts its operands on the ports, and
is `exec` of what its word decodes to (R57, R61, R76). With no command issued it changes nothing (R216). -/
def Obligations.StepRunsTheDecodedCommand : Prop :=
  (∀ (s : State) (c : Command) (rest : List Command) (i : Instr),
    s.commands = c :: rest → decode s.nctx c.word = .ok i →
      step s = exec i { s with ports := c.ports, commands := rest }) ∧
  (∀ s : State, s.commands = [] → step s = .next s)

/-- A reserved or illegal word is answered with `IllegalCommand`, and no slot changes (R77, R204, R206). -/
def Obligations.ReservedWordIsAnswered : Prop :=
  ∀ (s : State) (c : Command) (rest : List Command),
    s.commands = c :: rest → ReservedWord s.nctx c.word →
      step s = .next
        { s with
          ports := c.ports
          commands := rest
          responses := s.responses ++
            [{ status := .illegalCommand, count := 0, data := Vector.replicate 16 0, region := c.ports.region }] }

/-- Every command the host issues is taken by one step and gets exactly one response; no step stops the machine
(R208, R242). -/
def Obligations.EveryCommandGetsOneResponse : Prop :=
  ∀ (s : State) (c : Command) (rest : List Command), s.commands = c :: rest →
    ∃ t r, step s = .next t ∧ t.commands = rest ∧ t.responses = s.responses ++ [r]

/-- Without a slot of that number a command is answered with `IllegalCommand` too. The spec refuses such a command when
it is decoded (R76, R77); that its meaning gives the same answer is the model's choice (log entry 4). -/
def Obligations.CommandWithoutSlotIsAnswered : Prop :=
  ∀ (i : Instr) (s : State), i.wf s.nctx = false →
    exec i s = .next
      { s with
        responses := s.responses ++
          [{ status := .illegalCommand, count := 0, data := Vector.replicate 16 0, region := s.ports.region }] }

/-! ### Power-on -/

/-- At power-on every slot holds the creation-time record, and there is no command and no response (R33, R34, R230). -/
def Obligations.PowerOnHoldsCreationValues : Prop :=
  ∀ n : Nat, (State.powerOn n).nctx = n ∧
    (∀ k, k < n → (State.powerOn n).slots[k]? = some
      { state := ⟨0x67452301, 0xefcdab89, 0x98badcfe, 0x10325476⟩, buf := Vector.replicate 64 0, bufferLength := 0,
        totalBytes := 0 }) ∧
    (State.powerOn n).commands = [] ∧ (State.powerOn n).responses = []

/-- The invariant of the machine holds at power-on for every `NCTX` the spec admits, and at `State.reset`, whose number
of slots is the model's choice (log entry 1); every slot then stands for the empty byte sequence (R25, R26, R27). -/
def Obligations.InvariantHoldsAtPowerOn : Prop :=
  (∀ n : Nat, 1 ≤ n → n ≤ 256 → (State.powerOn n).inv ∧ ∀ c ∈ (State.powerOn n).slots, Represents [] c) ∧
  State.reset.inv

/-! ### Compressor -/

/-- The four mixing functions, bit by bit, with the spec's example of each, and what each makes of zeros: only `I` does not
map them to zero (R132 to R135). -/
def Obligations.MixingFunctionsByBit : Prop :=
  (∀ (x y z : Word) (i : Nat), i < 32 →
    (mixF x y z).getLsbD i = (if x.getLsbD i then y.getLsbD i else z.getLsbD i) ∧
    (mixG x y z).getLsbD i = (if z.getLsbD i then x.getLsbD i else y.getLsbD i) ∧
    (mixH x y z).getLsbD i = ((x.getLsbD i ^^ y.getLsbD i) ^^ z.getLsbD i) ∧
    (mixI x y z).getLsbD i = (y.getLsbD i ^^ (x.getLsbD i || !z.getLsbD i))) ∧
  mixF 0x0f0f0f0f 0x33333333 0x55555555 = 0x53535353 ∧ mixG 0x0f0f0f0f 0x33333333 0x55555555 = 0x27272727 ∧
  mixH 0x0f0f0f0f 0x33333333 0x55555555 = 0x69696969 ∧ mixI 0x0f0f0f0f 0x33333333 0x55555555 = 0x9c9c9c9c ∧
  mixF 0 0 0 = 0 ∧ mixG 0 0 0 = 0 ∧ mixH 0 0 0 = 0 ∧ mixI 0 0 0 = 0xffffffff

/-- `rotl32(x, n)` for `0 < n < 32` is the rotation to the left by `n` places (R9). -/
def Obligations.RotateIsLeftRotation : Prop :=
  ∀ (x : Word) (n : Nat), 0 < n → n < 32 → rotl32 x n = x.rotateLeft n

/-- The message index, rotation amount and mixing function of every step: the formulas of R136 under both readings of the
index (the global step `j` and the step within the round), the cycles of R137 with every amount in 4..23, and R139. -/
def Obligations.ScheduleOfEveryStep : Prop :=
  ∀ j : Fin 64,
    (messageIndex j).val =
      (if j.val < 16 then j.val % 16 else if j.val < 32 then (5 * j.val + 1) % 16
        else if j.val < 48 then (3 * j.val + 5) % 16 else (7 * j.val) % 16) ∧
    (messageIndex j).val =
      (if j.val < 16 then (j.val % 16) % 16 else if j.val < 32 then (5 * (j.val % 16) + 1) % 16
        else if j.val < 48 then (3 * (j.val % 16) + 5) % 16 else (7 * (j.val % 16)) % 16) ∧
    [[7, 12, 17, 22], [5, 9, 14, 20], [4, 11, 16, 23], [6, 10, 15, 21]][j.val / 16]?.bind (·[j.val % 4]?) =
      some (rotationAmount j) ∧
    (4 ≤ rotationAmount j ∧ rotationAmount j ≤ 23) ∧
    (∀ x y z : Word, mixFn j x y z =
      if j.val < 16 then mixF x y z else if j.val < 32 then mixG x y z else if j.val < 48 then mixH x y z
      else mixI x y z)

/-- Round constant `T[j] = floor(2^32 * |sin(j + 1)|)` for `j` in 0..63, the argument in radians (R138; the unit by
92_eei_decisions.md D21): the model's table is the source's formula. -/
def Obligations.RoundConstantsAreTheSineFormula : Prop :=
  ∀ j : Fin 64, ((roundConstant j).toNat : ℤ) = ⌊(2 ^ 32 : ℝ) * |Real.sin ((j.val : ℝ) + 1)|⌋

/-- Bit `b` of message word `i` is bit `b mod 8` of byte `4i + b div 8` of the block: the words are assembled
little-endian (R131). -/
def Obligations.MessageWordsAreLittleEndian : Prop :=
  ∀ (blk : Block) (i : Fin 16) (b : Fin 32),
    (messageWords blk)[i.val].getLsbD b.val = blk[4 * i.val + b.val / 8].getLsbD (b.val % 8)

/-- The step-level view and the loop agree: before step `j` the transient registers hold the message words, the working
variables of the loop at the top of iteration `j`, and `j` (R31, R146). -/
def Obligations.UnitHoldsTheLoopVariables : Prop :=
  ∀ (st : HashState) (blk : Block) (j : Nat), j ≤ 64 →
    CompressorRegs.run j (CompressorRegs.start st blk) =
      { m := messageWords blk
        w := ((List.finRange 64).take j).foldl (compressStep (messageWords blk)) ⟨st.A, st.B, st.C, st.D⟩
        j := j }

/-- `compress` in full (R145, with R140, R141, R142): 64 steps in increasing order on `(a, b, c, d)` seeded from the state
words, each `temp <- a + fn(j)(b, c, d) + m[g(j)] + T[j]`, `new <- b + rotl32(temp, s(j))`,
`(a, b, c, d) <- (d, new, b, c)`, then the four variables added to the pre-block state words. `m[g]` is written out from
the block's bytes: `(blk[4g + 3], blk[4g + 2], blk[4g + 1], blk[4g])` from high to low (R131). -/
def Obligations.CompressIsTheRfcLoop : Prop :=
  ∀ (st : HashState) (blk : Block),
    compress st blk =
      let final := (List.finRange 64).foldl
        (fun (v : Word × Word × Word × Word) j =>
          let (a, b, c, d) := v
          let g := messageIndex j
          let m : Word := blk[4 * g.val + 3] ++ blk[4 * g.val + 2] ++ blk[4 * g.val + 1] ++ blk[4 * g.val]
          let temp := a + mixFn j b c d + m + roundConstant j
          (d, b + temp.rotateLeft (rotationAmount j), b, c))
        (st.A, st.B, st.C, st.D)
      { A := st.A + final.1, B := st.B + final.2.1, C := st.C + final.2.2.1, D := st.D + final.2.2.2 }

/-- Two whole compressions of 95_test_vectors.md §2.5: the zero block (R144) and the padded block of "abc" (R145). -/
def Obligations.CompressesSpecBlocks : Prop :=
  compress HashState.iv (Vector.replicate 64 0) = ⟨0x031f1dac, 0x6ea58ed0, 0x1fab67b7, 0x74317791⟩ ∧
  compress HashState.iv
      (((((Vector.replicate 64 0).set 0 0x61).set 1 0x62).set 2 0x63).set 3 0x80 |>.set 56 0x18) =
    ⟨0x98500190, 0xb04fd23c, 0x7d3f96d6, 0x727fe128⟩

/-! ### Absorb -/

/-- `absorb` on one byte (R100, R102): below a full block it stores the byte at `bufferLength` and counts it; the byte that
fills the block runs one compression of the filled block and clears the buffer. `totalBytes` is not touched. -/
def Obligations.AbsorbOneByte : Prop :=
  ∀ (c : Context) (v : Byte),
    (∀ h : c.bufferLength.val + 1 < 64, c.absorb v =
      { c with buf := c.buf.set c.bufferLength.val v, bufferLength := ⟨c.bufferLength.val + 1, h⟩ }) ∧
    (c.bufferLength.val = 63 → c.absorb v =
      { c with
        state := compress c.state (c.buf.set 63 v)
        buf := Vector.replicate 64 0
        bufferLength := 0 })

/-- Absorbing `n` bytes on a slot holding `L` runs exactly `floor((L + n) / 64)` compressions and leaves
`bufferLength = (L + n) mod 64` (R101). -/
def Obligations.CompressionsRunByAbsorb : Prop :=
  ∀ (c : Context) (bs : List Byte),
    compressionsRun c bs = (c.bufferLength.val + bs.length) / 64 ∧
    (c.absorbAll bs).bufferLength.val = (c.bufferLength.val + bs.length) % 64

/-- The frame of absorbing within one block: bytes that do not fill the block change no state word and not `totalBytes`,
and change only the buffer bytes they are stored to, `bufferLength .. bufferLength + n - 1` (R100, R147). -/
def Obligations.AbsorbWithinBlockFrame : Prop :=
  ∀ (c : Context) (bs : List Byte), c.bufferLength.val + bs.length < 64 →
    (c.absorbAll bs).state = c.state ∧
    (c.absorbAll bs).totalBytes = c.totalBytes ∧
    (c.absorbAll bs).bufferLength.val = c.bufferLength.val + bs.length ∧
    (∀ i : Fin 64, i.val < c.bufferLength.val ∨ c.bufferLength.val + bs.length ≤ i.val →
      (c.absorbAll bs).buf[i.val] = c.buf[i.val]) ∧
    (∀ (j : Nat) (h : j < bs.length) (hb : c.bufferLength.val + j < 64),
      (c.absorbAll bs).buf[c.bufferLength.val + j] = bs[j])

/-- The source's bulk path leaves the same record as absorbing byte by byte, on every slot that meets the slot
invariants (R104; the bytes above `bufferLength` by R27). -/
def Obligations.BulkPathLeavesTheSameRecord : Prop :=
  ∀ (c : Context) (bs : List Byte), c.inv → c.absorbBulk bs = c.absorbAll bs

/-! ### The commands -/

/-- UPDATE (R103, R201): within the bounds of its region it counts `len` bytes and absorbs the bytes `off .. off + len - 1`
in increasing order; out of bounds it is answered with `BufferBoundsError` and changes nothing. -/
def Obligations.UpdateAbsorbsOrIsRefused : Prop :=
  ∀ (k : Slot) (s : State) (c : Context), s.slot? k = some c →
    IsWordOf (.update k) (0x00#8 ++ 0x00#8 ++ k ++ 0x01#8) ∧
    (∀ bs : List Byte, 0 ≤ s.off → 0 ≤ s.len → s.off + s.len ≤ s.ports.region.length →
      bs.length = s.len.toNat → (∀ i, i < s.len.toNat → bs[i]? = s.ports.region[s.off.toNat + i]?) →
      exec (.update k) s = .next
        { s with
          slots := s.slots.set k.toNat
            (bs.foldl Context.absorb { c with totalBytes := c.totalBytes + BitVec.ofNat 64 s.len.toNat })
          responses := s.responses ++
            [{ status := .ok, count := 0, data := Vector.replicate 16 0, region := s.ports.region }] }) ∧
    (s.off < 0 ∨ s.len < 0 ∨ s.off + s.len > s.ports.region.length →
      exec (.update k) s = .next
        { s with
          responses := s.responses ++
            [{ status := .bufferBoundsError, count := 0, data := Vector.replicate 16 0,
               region := s.ports.region }] })

/-- UPDATE_BYTE (R105): it counts one byte and absorbs the byte of the command word. -/
def Obligations.UpdateByteAbsorbsItsByte : Prop :=
  ∀ (k : Slot) (v : Byte) (s : State) (c : Context), s.slot? k = some c →
    IsWordOf (.updateByte k v) (0x00#8 ++ v ++ k ++ 0x02#8) ∧
    exec (.updateByte k v) s = .next
      { s with
        slots := s.slots.set k.toNat (Context.absorb { c with totalBytes := c.totalBytes + 1 } v)
        responses := s.responses ++
          [{ status := .ok, count := 0, data := Vector.replicate 16 0, region := s.ports.region }] }

/-- RESET (R106, R35): the slot holds its creation-time values, whatever it held. -/
def Obligations.ResetRestoresCreationValues : Prop :=
  ∀ (k : Slot) (s : State), k.toNat < s.nctx →
    IsWordOf (.reset k) (0x00#8 ++ 0x00#8 ++ k ++ 0x05#8) ∧
    exec (.reset k) s = .next
      { s with
        slots := s.slots.set k.toNat
          { state := ⟨0x67452301, 0xefcdab89, 0x98badcfe, 0x10325476⟩, buf := Vector.replicate 64 0,
            bufferLength := 0, totalBytes := 0 }
        responses := s.responses ++
          [{ status := .ok, count := 0, data := Vector.replicate 16 0, region := s.ports.region }] }

/-- CLONE (R107): slot `d` holds what slot `k` holds, every field of it; a self-copy changes no slot. -/
def Obligations.CloneCopiesTheSlot : Prop :=
  ∀ (k d : Slot) (s : State) (c : Context), s.slot? k = some c → d.toNat < s.nctx →
    IsWordOf (.clone k d) (0x00#8 ++ d ++ k ++ 0x06#8) ∧
    exec (.clone k d) s = .next
      { s with
        slots := if d = k then s.slots else s.slots.set d.toNat c
        responses := s.responses ++
          [{ status := .ok, count := 0, data := Vector.replicate 16 0, region := s.ports.region }] }

/-- `finalize` (R172): the padding of R170 is absorbed, left to right, and the state words after it are the output, each
little-endian. -/
def Obligations.FinalizePadsAndSerializes : Prop :=
  ∀ c : Context,
    let last := (pad c.bufferLength.val c.totalBytes).foldl Context.absorb c
    c.finalize.toList =
      (le32bytes last.state.A).toList ++ (le32bytes last.state.B).toList ++ (le32bytes last.state.C).toList ++
        (le32bytes last.state.D).toList ∧
    last.bufferLength = 0

/-- DIGEST (R173): with `len >= 16` and 16 bytes of room at `off`, the digest stands at `off .. off + 15` of the region in
the response, every other byte of it is as before, COUNT is 16, and the slot is at its creation-time values. -/
def Obligations.DigestWritesSixteenBytes : Prop :=
  ∀ (k : Slot) (s : State) (c : Context), s.slot? k = some c →
    16 ≤ s.len → 0 ≤ s.off → s.off + 16 ≤ s.ports.region.length →
    IsWordOf (.digest k) (0x00#8 ++ 0x00#8 ++ k ++ 0x03#8) ∧
    ∃ region : Region, region.length = s.ports.region.length ∧
      (∀ a : Nat, region[a]? =
        if s.off.toNat ≤ a ∧ a < s.off.toNat + 16 then c.finalize.toList[a - s.off.toNat]?
        else s.ports.region[a]?) ∧
      exec (.digest k) s = .next
        { s with
          slots := s.slots.set k.toNat Context.reset
          responses := s.responses ++
            [{ status := .ok, count := 16, data := Vector.replicate 16 0, region := region }] }

/-- DIGEST's errors and their order (R202, R203, R205): `PartialDigestUnsupportedError` whenever `len < 16`, then
`InsufficientOutputSpaceError` when `off < 0`, `off > |r|` or `|r| - off < 16`; nothing else changes. -/
def Obligations.DigestRefusalsInOrder : Prop :=
  ∀ (k : Slot) (s : State), k.toNat < s.nctx →
    (s.len < 16 → exec (.digest k) s = .next
      { s with
        responses := s.responses ++
          [{ status := .partialDigestUnsupportedError, count := 0, data := Vector.replicate 16 0,
             region := s.ports.region }] }) ∧
    (16 ≤ s.len →
      s.off < 0 ∨ s.off > s.ports.region.length ∨ (s.ports.region.length : Int) - s.off < 16 →
      exec (.digest k) s = .next
        { s with
          responses := s.responses ++
            [{ status := .insufficientOutputSpaceError, count := 0, data := Vector.replicate 16 0,
               region := s.ports.region }] })

/-- DIGEST16 (R175): the digest is the DATA of the response, COUNT is 0, and the slot is at its creation-time values. -/
def Obligations.Digest16ReturnsTheDigest : Prop :=
  ∀ (k : Slot) (s : State) (c : Context), s.slot? k = some c →
    IsWordOf (.digest16 k) (0x00#8 ++ 0x00#8 ++ k ++ 0x04#8) ∧
    exec (.digest16 k) s = .next
      { s with
        slots := s.slots.set k.toNat Context.reset
        responses := s.responses ++
          [{ status := .ok, count := 0, data := c.finalize, region := s.ports.region }] }

/-! ### Padding and serialization -/

/-- The padding (R170): `0x80`, the least run of zeros that leaves 56 modulo 64, and the length field; `64 - L` bytes for
`L <= 55` and `128 - L` for `L >= 56`. -/
def Obligations.PaddingShape : Prop :=
  ∀ (l : Nat) (n : ByteCount), l < 64 →
    ∃ z : Nat,
      pad l n = 0x80 :: (List.replicate z 0 ++ (le64bytes (n * 8)).toList) ∧
      (l + 1 + z) % 64 = 56 ∧ (∀ z', z' < z → (l + 1 + z') % 64 ≠ 56) ∧
      z = (if l ≤ 55 then 55 - l else 119 - l) ∧
      (pad l n).length = (if l ≤ 55 then 64 - l else 128 - l)

/-- The bit length (R171): `(totalBytes * 8) mod 2^64`, which is `{totalBytes[60:0], 0b000}`; the padding bytes are not
counted. -/
def Obligations.BitLengthDropsTopBits : Prop :=
  (∀ n : ByteCount, bitLength n = n.extractLsb' 0 61 ++ 0#3 ∧ (bitLength n).toNat = n.toNat * 8 % 2 ^ 64) ∧
  (∀ c : Context, (c.absorbAll (pad c.bufferLength.val c.totalBytes)).totalBytes = c.totalBytes)

/-- The last eight bytes of the padding of an `n`-byte message are `(n * 8) mod 2^64`, least significant byte first
(R178). -/
def Obligations.LengthBytesLittleEndian : Prop :=
  ∀ (l n i : Nat), i < 8 →
    ((pad l (BitVec.ofNat 64 n))[(pad l (BitVec.ofNat 64 n)).length - 8 + i]?).map BitVec.toNat =
      some (n * 8 % 2 ^ 64 / 256 ^ i % 256)

/-- Output byte `4w + i` is bits `8i + 7 : 8i` of state word `w`, and the words that `finalize` serializes are those after
the padding is absorbed (R172, R174). -/
def Obligations.SerializationOrder : Prop :=
  (∀ (st : HashState) (i : Fin 4),
    (serialize st)[i.val] = st.A.extractLsb' (8 * i.val) 8 ∧
    (serialize st)[4 + i.val] = st.B.extractLsb' (8 * i.val) 8 ∧
    (serialize st)[8 + i.val] = st.C.extractLsb' (8 * i.val) 8 ∧
    (serialize st)[12 + i.val] = st.D.extractLsb' (8 * i.val) 8) ∧
  (∀ c : Context, c.finalize = serialize (c.absorbAll (pad c.bufferLength.val c.totalBytes)).state)

/-- Finalizing runs one compression when `bufferLength <= 55` and two otherwise; for an `n`-byte message, one when
`n mod 64 <= 55` (R177). -/
def Obligations.FinalizationCompressions : Prop :=
  ∀ c : Context,
    compressionsRun c (pad c.bufferLength.val c.totalBytes) = (if c.bufferLength.val ≤ 55 then 1 else 2) ∧
    (c.inv →
      compressionsRun c (pad c.bufferLength.val c.totalBytes) = (if c.totalBytes.toNat % 64 ≤ 55 then 1 else 2))

/-! ### Frames and whole-machine rules -/

/-- The frame of every command on the slots and the interface: the number of slots, the ports, the commands not yet taken
and every slot but the one it writes are unchanged (R21, R107, R231). -/
def Obligations.OtherSlotsUnchanged : Prop :=
  ∀ (i : Instr) (s t : State), exec i s = .next t →
    t.nctx = s.nctx ∧ t.ports = s.ports ∧ t.commands = s.commands ∧
    ∀ j : Nat, j ≠ i.writes.toNat → t.slots[j]? = s.slots[j]?

/-- The frame of every command on the host's region (R53, R58, R86): a command other than DIGEST leaves every byte as it
was; DIGEST leaves the extent and every byte outside `off .. off + 15`, and a failed DIGEST every byte. -/
def Obligations.RegionFrame : Prop :=
  ∀ (i : Instr) (s t : State) (r : Response), exec i s = .next t → t.responses = s.responses ++ [r] →
    ((∀ k, i ≠ .digest k) → r.region = s.ports.region) ∧
    r.region.length = s.ports.region.length ∧
    (∀ a : Nat, a < s.off.toNat ∨ s.off.toNat + 16 ≤ a → r.region[a]? = s.ports.region[a]?) ∧
    (r.status ≠ .ok → r.region = s.ports.region)

/-- An error leaves no trace but its response, in a command and in a step: no slot and no byte of a region changes, COUNT
is 0 and DATA is 16 zero bytes (R206, R207). -/
def Obligations.ErrorsLeaveNoTrace : Prop :=
  (∀ (i : Instr) (s t : State) (r : Response), exec i s = .next t → t.responses = s.responses ++ [r] →
    r.status ≠ .ok →
      t = { s with
            responses := s.responses ++
              [{ status := r.status, count := 0, data := Vector.replicate 16 0, region := s.ports.region }] }) ∧
  (∀ (s t : State) (c : Command) (rest : List Command) (r : Response), s.commands = c :: rest → step s = .next t →
    t.responses = s.responses ++ [r] → r.status ≠ .ok →
      t = { s with
            ports := c.ports
            commands := rest
            responses := s.responses ++
              [{ status := r.status, count := 0, data := Vector.replicate 16 0, region := c.ports.region }] })

/-- The COUNT and DATA of every response (R86): COUNT is 16 for a DIGEST that succeeds and 0 in every other case; DATA is
16 zero bytes but for a DIGEST16 that succeeds. -/
def Obligations.ResponseCountAndData : Prop :=
  ∀ (i : Instr) (s t : State) (r : Response), exec i s = .next t → t.responses = s.responses ++ [r] →
    r.count = (if (∃ k, i = .digest k) ∧ r.status = .ok then 16 else 0) ∧
    (¬ ((∃ k, i = .digest16 k) ∧ r.status = .ok) → r.data = Vector.replicate 16 0) ∧
    (∀ k c, i = .digest16 k → r.status = .ok → s.slot? k = some c → r.data = c.finalize)

/-- How `totalBytes` changes, in every slot, under every command (R24): an accepted UPDATE adds its length and UPDATE_BYTE
adds 1, modulo 2^64; RESET and a successful digest set it to 0; CLONE copies it; nothing else changes it. The bytes of a padding
are absorbed without counting. -/
def Obligations.TotalBytesAccounting : Prop :=
  (∀ (i : Instr) (s t : State) (r : Response) (j : Nat) (c c' : Context),
    exec i s = .next t → t.responses = s.responses ++ [r] → s.slots[j]? = some c → t.slots[j]? = some c' →
    (j ≠ i.writes.toNat ∨ r.status ≠ .ok → c'.totalBytes = c.totalBytes) ∧
    (j = i.writes.toNat ∧ r.status = .ok →
      match i with
      | .update _ => c'.totalBytes = c.totalBytes + BitVec.ofNat 64 s.len.toNat
      | .updateByte _ _ => c'.totalBytes = c.totalBytes + 1
      | .digest _ => c'.totalBytes = 0
      | .digest16 _ => c'.totalBytes = 0
      | .reset _ => c'.totalBytes = 0
      | .clone k _ => ∀ src, s.slot? k = some src → c'.totalBytes = src.totalBytes)) ∧
  (∀ c : Context, (c.absorbAll (pad c.bufferLength.val c.totalBytes)).totalBytes = c.totalBytes)

/-- How the four state words change, in every slot, under every command (R22, R147): an accepted UPDATE or UPDATE_BYTE
folds `compress` over the blocks its bytes fill together with the pending bytes of the buffer, and over no other; RESET and
a successful digest load the initial constants; CLONE copies them; nothing else changes them. -/
def Obligations.StateWordsChangeOnlyByCompression : Prop :=
  ∀ (i : Instr) (s t : State) (r : Response) (j : Nat) (c c' : Context),
    exec i s = .next t → t.responses = s.responses ++ [r] → s.slots[j]? = some c → t.slots[j]? = some c' →
    (j ≠ i.writes.toNat ∨ r.status ≠ .ok → c'.state = c.state) ∧
    (j = i.writes.toNat ∧ r.status = .ok →
      match i with
      | .update _ => c'.state = (fullBlocks (c.buf.toList.take c.bufferLength.val ++
          sourceBytes s.ports.region s.off.toNat s.len.toNat)).foldl compress c.state
      | .updateByte _ v => c'.state =
          (fullBlocks (c.buf.toList.take c.bufferLength.val ++ [v])).foldl compress c.state
      | .digest _ => c'.state = ⟨0x67452301, 0xefcdab89, 0x98badcfe, 0x10325476⟩
      | .digest16 _ => c'.state = ⟨0x67452301, 0xefcdab89, 0x98badcfe, 0x10325476⟩
      | .reset _ => c'.state = ⟨0x67452301, 0xefcdab89, 0x98badcfe, 0x10325476⟩
      | .clone k _ => ∀ src, s.slot? k = some src → c'.state = src.state)

/-- A successful DIGEST or DIGEST16 leaves its slot at the creation-time values, the record of a slot at power-on
(R33, R176, R179). -/
def Obligations.DigestLeavesTheSlotAtReset : Prop :=
  ∀ (k : Slot) (s t : State) (r : Response) (i : Instr), i = .digest k ∨ i = .digest16 k →
    exec i s = .next t → t.responses = s.responses ++ [r] → r.status = .ok →
      t.slot? k = (State.powerOn (k.toNat + 1)).slot? k

/-- No command reads a response given before it: on two states that differ only in those, a command leaves the same slots
and gives the same response (R29, R208). -/
def Obligations.ResponsesAreNotRead : Prop :=
  ∀ (i : Instr) (s t : State) (past : List Response), exec i s = .next t →
    ∃ r, t.responses = s.responses ++ [r] ∧
      exec i { s with responses := past } = .next { t with responses := past ++ [r] }

/-- Only UPDATE and DIGEST read the operand ports: on every other command their values have no effect on the slots or on
the response but for REGION', which is REGION (R80, R86). -/
def Obligations.PortsAreIgnored : Prop :=
  ∀ (i : Instr) (s t : State) (p : Ports), i.readsPorts = false → exec i s = .next t →
    ∃ r, t.responses = s.responses ++ [r] ∧ r.region = s.ports.region ∧
      exec i { s with ports := p } =
        .next { t with ports := p, responses := s.responses ++ [{ r with region := p.region }] }

/-- UPDATE reads only the bytes `off .. off + len - 1` of its region, and none after a bounds failure: two regions of one
extent that agree there leave the same slots and give the same status (R52). -/
def Obligations.UpdateReadsOnlyItsWindow : Prop :=
  ∀ (k : Slot) (s t : State) (region : Region), region.length = s.ports.region.length →
    (0 ≤ s.off → 0 ≤ s.len → s.off + s.len ≤ s.ports.region.length →
      ∀ a : Nat, s.off.toNat ≤ a → a < s.off.toNat + s.len.toNat → region[a]? = s.ports.region[a]?) →
    exec (.update k) s = .next t →
      ∃ (t' : State) (r : Response),
        exec (.update k) { s with ports := { s.ports with region := region } } = .next t' ∧
        t'.slots = t.slots ∧ t.responses = s.responses ++ [r] ∧
        t'.responses = s.responses ++ [{ r with region := region }]

/-- The buffer bytes at or above `bufferLength` are not observable (R27, R51): two slots that agree on everything else give
the same digest, after any bytes absorbed into both. -/
def Obligations.StaleBytesAreUnobservable : Prop :=
  ∀ (c c' : Context) (bs : List Byte),
    c.state = c'.state → c.bufferLength = c'.bufferLength → c.totalBytes = c'.totalBytes →
    (∀ i : Fin 64, i < c.bufferLength → c.buf[i.val] = c'.buf[i.val]) →
      (c.absorbAll bs).finalize = (c'.absorbAll bs).finalize

/-! ### Headline results -/

/-- The invariant of the machine is kept by every step, from every state that meets it: `1 <= NCTX <= 256`,
`bufferLength = totalBytes mod 64` and zeros above `bufferLength` in every slot, and every region within `MAX_EXTENT`
(R21, R26, R27, R81). The number of slots never changes. -/
def Obligations.InvariantIsKeptByEveryStep : Prop :=
  ∀ s t : State, s.inv → step s = .next t → t.inv ∧ t.nctx = s.nctx

/-- The state invariant of R25, carried through every command: where each slot represents a byte sequence, each slot after
the command represents that sequence extended, restarted or copied as the command says. -/
def Obligations.SlotsRepresentTheirHistories : Prop :=
  ∀ (i : Instr) (s t : State) (history : Nat → List Byte),
    (∀ j c, s.slots[j]? = some c → Represents (history j) c) → exec i s = .next t →
      ∀ j c, t.slots[j]? = some c → Represents (historyAfter i s history j) c

/-- The digest of a slot that has absorbed `msg` is MD5 of `msg`, computed as one fold over the padded message: both
commands return it with status OK, DIGEST16 in DATA and DIGEST at `off .. off + 15` of the region (R1, R173, R175). -/
def Obligations.DigestsAreMd5OfTheMessage : Prop :=
  ∀ (k : Slot) (s : State) (c : Context) (msg : List Byte), s.slot? k = some c → Represents msg c →
    (∃ t, exec (.digest16 k) s = .next t ∧
      t.responses = s.responses ++
        [{ status := .ok, count := 0, data := md5 msg, region := s.ports.region }]) ∧
    (16 ≤ s.len → 0 ≤ s.off → s.off + 16 ≤ s.ports.region.length →
      ∃ t r, exec (.digest k) s = .next t ∧ t.responses = s.responses ++ [r] ∧ r.status = .ok ∧
        ∀ i, i < 16 → r.region[s.off.toNat + i]? = (md5 msg).toList[i]?)

/-- MD5 of the source's known messages "", "a", "abc" and "message digest" (95_test_vectors.md §1.1). -/
def Obligations.Md5OfKnownMessages : Prop :=
  (md5 []).toList =
    [0xd4, 0x1d, 0x8c, 0xd9, 0x8f, 0x00, 0xb2, 0x04, 0xe9, 0x80, 0x09, 0x98, 0xec, 0xf8, 0x42, 0x7e] ∧
  (md5 [0x61]).toList =
    [0x0c, 0xc1, 0x75, 0xb9, 0xc0, 0xf1, 0xb6, 0xa8, 0x31, 0xc3, 0x99, 0xe2, 0x69, 0x77, 0x26, 0x61] ∧
  (md5 [0x61, 0x62, 0x63]).toList =
    [0x90, 0x01, 0x50, 0x98, 0x3c, 0xd2, 0x4f, 0xb0, 0xd6, 0x96, 0x3f, 0x7d, 0x28, 0xe1, 0x7f, 0x72] ∧
  (md5 [0x6d, 0x65, 0x73, 0x73, 0x61, 0x67, 0x65, 0x20, 0x64, 0x69, 0x67, 0x65, 0x73, 0x74]).toList =
    [0xf9, 0x6b, 0x69, 0x7d, 0x7c, 0xb7, 0x93, 0x8d, 0x52, 0x5a, 0x2f, 0x31, 0xaa, 0xf1, 0x61, 0xd0]

/-- Chunking invariance (R108): any stream of UPDATE and UPDATE_BYTE commands that feed slot `k` leaves the record, and so
the digest, that one UPDATE of all the bytes leaves. -/
def Obligations.ChunkingInvariance : Prop :=
  ∀ (s : State) (k : Slot) (c : Context) (groups : List (List Byte)),
    s.slot? k = some c → FeedsAll s.nctx k s.commands groups →
      ∃ t, run s.commands.length s = .next t ∧
        t.slots = s.slots.set k.toNat (c.update groups.flatten) ∧
        t.responses.length = s.responses.length + s.commands.length

/-- Clone independence (R109): after `CLONE c<k>, c<d>` with `d != k`, no commands that write only slot `k` change what a
digest of slot `d` returns, and the same with `k` and `d` swapped. -/
def Obligations.CloneIndependence : Prop :=
  ∀ (n : Nat) (s t : State) (k d : Slot) (c : Context) (first : Command) (rest : List Command),
    d ≠ k → s.slot? k = some c → s.commands = first :: rest → decode s.nctx first.word = .ok (.clone k d) →
    run (n + 1) s = .next t →
      (WritesOnly s.nctx k rest → t.slot? d = some c ∧
        ∃ u r, exec (.digest16 d) t = .next u ∧ u.responses = t.responses ++ [r] ∧ r.data = c.finalize) ∧
      (WritesOnly s.nctx d rest → t.slot? k = some c ∧
        ∃ u r, exec (.digest16 k) t = .next u ∧ u.responses = t.responses ++ [r] ∧ r.data = c.finalize)

/-- Commands on different slots commute (R61): issued in either order, two commands that are on no common slot leave the
same slots, and each gets the same response. -/
def Obligations.CommandsOnDistinctSlotsCommute : Prop :=
  ∀ (s : State) (c c' : Command) (rest : List Command) (i i' : Instr),
    s.commands = c :: c' :: rest → decode s.nctx c.word = .ok i → decode s.nctx c'.word = .ok i' →
    (∀ k ∈ i.touches, k ∉ i'.touches) →
      ∃ (t t' : State) (r r' : Response),
        run 2 s = .next t ∧ run 2 { s with commands := c' :: c :: rest } = .next t' ∧
        t.slots = t'.slots ∧ t.responses = s.responses ++ [r, r'] ∧ t'.responses = s.responses ++ [r', r]

/-- The HASH pseudo-command (R88) on any slot in any state: three commands, and the last response carries MD5 of the
region. The slot is left at its creation-time values and no other slot changes. -/
def Obligations.HashPseudoCommandIsMd5 : Prop :=
  ∀ (s : State) (k : Slot) (r : Region), k.toNat < s.nctx → r.length ≤ Config.maxExtent →
    s.commands = hashCommands k r →
      ∃ t, run 3 s = .next t ∧ t.slots = s.slots.set k.toNat Context.reset ∧ t.commands = [] ∧
        t.responses = s.responses ++
          [{ status := .ok, count := 0, data := Vector.replicate 16 0, region := [] },
           { status := .ok, count := 0, data := Vector.replicate 16 0, region := r },
           { status := .ok, count := 0, data := md5 r, region := [] }]

/-! ### Codes and operands -/

/-- The status codes (R200). -/
def Obligations.StatusCodes : Prop :=
  Status.code .ok = 0 ∧ Status.code .bufferBoundsError = 1 ∧ Status.code .partialDigestUnsupportedError = 2 ∧
  Status.code .insufficientOutputSpaceError = 3 ∧ Status.code .illegalCommand = 4

/-- OFFSET and LENGTH are read as signed: each is an integer in `-2^31 .. 2^31 - 1` that is the word modulo 2^32 (R84). -/
def Obligations.OperandsAreSigned : Prop :=
  ∀ s : State,
    (-(2 ^ 31) ≤ s.off ∧ s.off < 2 ^ 31 ∧ s.off % 2 ^ 32 = (s.ports.offset.toNat : Int)) ∧
    (-(2 ^ 31) ≤ s.len ∧ s.len < 2 ^ 31 ∧ s.len % 2 ^ 32 = (s.ports.length.toNat : Int))
end

