-- ==== Sys2Proof/Laws/State.lean ====
section
/-! SUPPORT. One lemma per field per update of the state and of a context, so that no later proof unfolds a record
update. -/

namespace Sys2Proof.Machine

section Updates

variable (s : State) (k : Slot) (c : Context) (st : Status) (n : Word) (data : DigestBytes) (r : Region)
  (cmd : Command) (rest : List Command)

@[simp] theorem setSlot_slots : (s.setSlot k c).slots = s.slots.set k.toNat c := rfl
@[simp] theorem setSlot_ports : (s.setSlot k c).ports = s.ports := rfl
@[simp] theorem setSlot_commands : (s.setSlot k c).commands = s.commands := rfl
@[simp] theorem setSlot_responses : (s.setSlot k c).responses = s.responses := rfl
@[simp] theorem setSlot_nctx : (s.setSlot k c).nctx = s.nctx := List.length_set

@[simp] theorem respond_slots : (respond st n data r s).slots = s.slots := rfl
@[simp] theorem respond_ports : (respond st n data r s).ports = s.ports := rfl
@[simp] theorem respond_commands : (respond st n data r s).commands = s.commands := rfl
@[simp] theorem respond_responses :
    (respond st n data r s).responses = s.responses ++ [{ status := st, count := n, data := data, region := r }] := rfl
@[simp] theorem respond_nctx : (respond st n data r s).nctx = s.nctx := rfl

@[simp] theorem respondDone_slots : (respondDone s).slots = s.slots := rfl
@[simp] theorem respondDone_ports : (respondDone s).ports = s.ports := rfl
@[simp] theorem respondDone_commands : (respondDone s).commands = s.commands := rfl
@[simp] theorem respondDone_responses :
    (respondDone s).responses =
      s.responses ++ [{ status := .ok, count := 0, data := zeroData, region := s.ports.region }] := rfl
@[simp] theorem respondDone_nctx : (respondDone s).nctx = s.nctx := rfl

@[simp] theorem raise_slots : (raise st s).slots = s.slots := rfl
@[simp] theorem raise_ports : (raise st s).ports = s.ports := rfl
@[simp] theorem raise_commands : (raise st s).commands = s.commands := rfl
@[simp] theorem raise_responses :
    (raise st s).responses =
      s.responses ++ [{ status := st, count := 0, data := zeroData, region := s.ports.region }] := rfl
@[simp] theorem raise_nctx : (raise st s).nctx = s.nctx := rfl

@[simp] theorem accept_slots : (accept cmd rest s).slots = s.slots := rfl
@[simp] theorem accept_ports : (accept cmd rest s).ports = cmd.ports := rfl
@[simp] theorem accept_commands : (accept cmd rest s).commands = rest := rfl
@[simp] theorem accept_responses : (accept cmd rest s).responses = s.responses := rfl
@[simp] theorem accept_nctx : (accept cmd rest s).nctx = s.nctx := rfl
@[simp] theorem accept_slot? : (accept cmd rest s).slot? k = s.slot? k := rfl

@[simp] theorem accept_off : (accept cmd rest s).off = sext32 cmd.ports.offset := rfl
@[simp] theorem accept_len : (accept cmd rest s).len = sext32 cmd.ports.length := rfl
@[simp] theorem accept_extent : (accept cmd rest s).extent = cmd.ports.region.length := rfl

end Updates

section Contexts

variable (c : Context) (n : Nat)

@[simp] theorem clear_state : c.clear.state = c.state := rfl
@[simp] theorem clear_buf : c.clear.buf = Vector.replicate 64 0 := rfl
@[simp] theorem clear_bufferLength : c.clear.bufferLength = 0 := rfl
@[simp] theorem clear_totalBytes : c.clear.totalBytes = c.totalBytes := rfl

@[simp] theorem count_state : (c.count n).state = c.state := rfl
@[simp] theorem count_buf : (c.count n).buf = c.buf := rfl
@[simp] theorem count_bufferLength : (c.count n).bufferLength = c.bufferLength := rfl
@[simp] theorem count_totalBytes : (c.count n).totalBytes = c.totalBytes + BitVec.ofNat 64 n := rfl

@[simp] theorem reset_state : Context.reset.state = HashState.iv := rfl
@[simp] theorem reset_buf : Context.reset.buf = Vector.replicate 64 0 := rfl
@[simp] theorem reset_bufferLength : Context.reset.bufferLength = 0 := rfl
@[simp] theorem reset_totalBytes : Context.reset.totalBytes = 0 := rfl

end Contexts

/-- A slot number names a slot exactly when it is below `NCTX`. -/
theorem slot?_eq_some_iff (s : State) (k : Slot) : (∃ c, s.slot? k = some c) ↔ k.toNat < s.nctx := by
  simp [State.slot?, State.nctx, List.getElem?_eq_some_iff]

/-- At or above `NCTX` there is no slot. -/
theorem slot?_eq_none (s : State) (k : Slot) (h : s.nctx ≤ k.toNat) : s.slot? k = none := by
  simpa [State.slot?, State.nctx] using h

/-- A written slot reads back what was written. -/
theorem slot?_setSlot_self (s : State) (k : Slot) (c : Context) (h : k.toNat < s.nctx) :
    (s.setSlot k c).slot? k = some c := by
  rw [State.nctx] at h
  simp [State.slot?, h]

/-- Writing back what a slot holds changes nothing. -/
theorem setSlot_self {s : State} {k : Slot} {c : Context} (h : s.slot? k = some c) : s.setSlot k c = s := by
  obtain ⟨_, h⟩ := List.getElem?_eq_some_iff.1 h
  simp [State.setSlot, ← h]

/-- Writing a slot leaves every other slot as it was. -/
theorem slot?_setSlot_other (s : State) (k j : Slot) (c : Context) (h : j ≠ k) :
    (s.setSlot k c).slot? j = s.slot? j := by
  have hne : k.toNat ≠ j.toNat := fun e => h (BitVec.eq_of_toNat_eq e.symm)
  simp [State.slot?, hne]

end Sys2Proof.Machine
end

