-- ==== Sys2Proof/Laws/Ops.lean ====
section
/-! SUPPORT. What the shared operations do: the accesses to host regions, the access to a slot, the status checks and
the serialization. Later proofs cite these and do not unfold the operations. -/

namespace Sys2Proof.Machine

/-! ### The two definitions the elaborator does not unfold -/

/-- `compress` is the 64 steps of the unit and the feed-forward (R145). -/
theorem compress_eq (st : HashState) (blk : Block) :
    compress st blk = feedForward st (CompressorRegs.run 64 (CompressorRegs.start st blk)).w := by
  unfold compress
  rfl

/-- `finalize` absorbs the padding and serializes the state words (R172). -/
theorem finalize_eq (c : Context) :
    c.finalize = serialize (c.absorbAll (pad c.bufferLength.val c.totalBytes)).state := by
  unfold Context.finalize
  rfl

/-! ### Host regions -/

/-- Byte `i` of the source bytes is byte `off + i` of the region (R52). -/
theorem sourceBytes_getElem? (r : Region) (off len i : Nat) (h : i < len) :
    (sourceBytes r off len)[i]? = srcRead r (off + i) := by
  simp [sourceBytes, srcRead, List.getElem?_take_of_lt h]

/-- Inside the region's bounds there are `len` source bytes. -/
theorem sourceBytes_length (r : Region) (off len : Nat) (h : off + len ≤ r.length) :
    (sourceBytes r off len).length = len := by
  simp [sourceBytes]; omega

/-- The source bytes depend only on the bytes `off .. off + len - 1` of the region. -/
theorem sourceBytes_congr (r r' : Region) (off len : Nat)
    (h : ∀ i, off ≤ i → i < off + len → srcRead r i = srcRead r' i) :
    sourceBytes r off len = sourceBytes r' off len := by
  apply List.ext_getElem?
  intro i
  by_cases hi : i < len
  · rw [sourceBytes_getElem? _ _ _ _ hi, sourceBytes_getElem? _ _ _ _ hi]
    exact h _ (by omega) (by omega)
  · simp only [sourceBytes]
    rw [List.getElem?_take_eq_none (by omega), List.getElem?_take_eq_none (by omega)]

/-- A write keeps the extent of the region. -/
@[simp] theorem outWrite_length (r : Region) (i : Nat) (v : Byte) : (outWrite r i v).length = r.length := by
  simp [outWrite]

/-- Writing a sequence of bytes keeps the extent of the region. -/
@[simp] theorem outWriteAll_length (r : Region) (off : Nat) (vs : List Byte) :
    (outWriteAll r off vs).length = r.length := by
  induction vs generalizing r off with
  | nil => rfl
  | cons v vs ih => simp [outWriteAll, ih]

/-- A byte outside the written ones reads as before (R53). -/
theorem outWriteAll_outside (r : Region) (off : Nat) (vs : List Byte) (a : Nat)
    (h : a < off ∨ off + vs.length ≤ a) : (outWriteAll r off vs)[a]? = r[a]? := by
  induction vs generalizing r off with
  | nil => rfl
  | cons v vs ih =>
    simp only [List.length_cons] at h
    rw [outWriteAll, ih _ _ (by omega), outWrite, List.getElem?_set_ne (by omega)]

/-- A written byte reads as written, inside the region (R53). -/
theorem outWriteAll_inside (r : Region) (off : Nat) (vs : List Byte) (i : Nat) (hi : i < vs.length)
    (h : off + vs.length ≤ r.length) : (outWriteAll r off vs)[off + i]? = vs[i]? := by
  induction vs generalizing r off i with
  | nil => simp at hi
  | cons v vs ih =>
    simp only [List.length_cons] at hi h
    cases i with
    | zero =>
      rw [outWriteAll, outWriteAll_outside _ _ _ _ (by omega)]
      rw [Nat.add_zero, outWrite, List.getElem?_set_self (by omega)]; simp
    | succ i =>
      rw [outWriteAll, show off + (i + 1) = off + 1 + i by omega, ih _ _ _ (by omega) (by simp; omega)]
      simp

/-- A write keeps a region well formed (R80, R81). -/
theorem outWrite_wf (r : Region) (i : Nat) (v : Byte) (h : Memory.wf r = true) : Memory.wf (outWrite r i v) = true := by
  simpa [Memory.wf] using h

/-- Writing a sequence of bytes keeps a region well formed (R80, R81). -/
theorem outWriteAll_wf (r : Region) (off : Nat) (vs : List Byte) (h : Memory.wf r = true) :
    Memory.wf (outWriteAll r off vs) = true := by
  simpa [Memory.wf] using h

/-- The region on the ports after reset is well formed, and there is no other. -/
theorem reset_regions_wf : Memory.wf State.reset.ports.region = true ∧ State.reset.commands = [] ∧
    State.reset.responses = [] := by decide

/-! ### Slots -/

/-- On a slot that exists, `withSlot` is its body. -/
theorem withSlot_some {k : Slot} {s : State} {c : Context} (body : Context → State) (h : s.slot? k = some c) :
    withSlot k s body = body c := by
  simp [withSlot, h]

/-- On a slot that does not exist, `withSlot` is the answer `IllegalCommand`. -/
theorem withSlot_none {k : Slot} {s : State} (body : Context → State) (h : s.slot? k = none) :
    withSlot k s body = raise .illegalCommand s := by
  simp [withSlot, h]

/-! ### Status checks -/

/-- UPDATE is accepted exactly within the bounds of its region (R103, R201). -/
theorem updateStatus_ok_iff (off len : Int) (extent : Nat) :
    updateStatus off len extent = .ok ↔ 0 ≤ off ∧ 0 ≤ len ∧ off + len ≤ extent := by
  unfold updateStatus
  split <;> simp <;> omega

/-- UPDATE answers one of two statuses (R201). -/
theorem updateStatus_cases (off len : Int) (extent : Nat) :
    updateStatus off len extent = .ok ∨ updateStatus off len extent = .bufferBoundsError := by
  unfold updateStatus
  split <;> simp

/-- DIGEST is accepted exactly when `len >= 16` and 16 bytes stand at `off` (R173). -/
theorem digestStatus_ok_iff (off len : Int) (extent : Nat) :
    digestStatus off len extent = .ok ↔ 16 ≤ len ∧ 0 ≤ off ∧ off + 16 ≤ extent := by
  unfold digestStatus
  split
  · simp; omega
  · split <;> simp <;> omega

/-- DIGEST answers one of three statuses (R202, R203). -/
theorem digestStatus_cases (off len : Int) (extent : Nat) :
    digestStatus off len extent = .ok ∨ digestStatus off len extent = .partialDigestUnsupportedError ∨
      digestStatus off len extent = .insufficientOutputSpaceError := by
  unfold digestStatus
  split
  · simp
  · split <;> simp

/-! ### Serialization and padding -/

/-- The serialized state words as one list of bytes (R174). -/
theorem serialize_toList (st : HashState) :
    (serialize st).toList =
      (le32bytes st.A).toList ++ (le32bytes st.B).toList ++ (le32bytes st.C).toList ++ (le32bytes st.D).toList := by
  show ((le32bytes st.A ++ le32bytes st.B ++ le32bytes st.C ++ le32bytes st.D :
    Vector Byte (4 + 4 + 4 + 4))).toList = _
  simp only [Vector.toList_append]

/-- The output of `finalize` is 16 bytes, whatever the slot holds. -/
theorem finalize_length (c : Context) : c.finalize.toList.length = 16 := by simp

/-- The length field of a padding is 8 bytes. -/
theorem le64bytes_length (q : BitVec 64) : (le64bytes q).toList.length = 8 := by simp

/-- The length of a padding: one byte, the zero run and the length field (R170). -/
theorem pad_length (l : Nat) (n : ByteCount) : (pad l n).length = zeroRun l + 9 := by
  simp [pad]

end Sys2Proof.Machine
end

