-- ==== Sys2Proof/Laws/Accumulator.lean ====
section
/-! SUPPORT. What absorb does to each field of a context, for one byte and for a sequence of bytes, and the order in which
counting and absorbing commute. -/

namespace Sys2Proof.Machine

section Absorb

variable (c : Context) (v : Byte) (bs : List Byte)

/-- Absorb below a full block: the byte is stored and counted in `bufferLength` (R100). -/
theorem absorb_of_lt (h : c.bufferLength.val + 1 < 64) :
    c.absorb v =
      { c with buf := c.buf.set c.bufferLength.val v, bufferLength := ⟨c.bufferLength.val + 1, h⟩ } := by
  simp [Context.absorb, h]

/-- Absorb that fills the block: one compression, and a cleared buffer (R100, R102). -/
theorem absorb_of_full (h : c.bufferLength.val + 1 = 64) :
    c.absorb v =
      { c with
        state := compress c.state (c.buf.set c.bufferLength.val v)
        buf := Vector.replicate 64 0
        bufferLength := 0 } := by
  simp [Context.absorb, h, Context.clear]

/-- Every absorb is one of the two. -/
theorem bufferLength_cases : c.bufferLength.val + 1 < 64 ∨ c.bufferLength.val + 1 = 64 := by omega

@[simp] theorem absorb_totalBytes : (c.absorb v).totalBytes = c.totalBytes := by
  rcases bufferLength_cases c with h | h
  · rw [absorb_of_lt c v h]
  · rw [absorb_of_full c v h]

/-- `bufferLength` grows by one modulo 64 (R100). -/
theorem absorb_bufferLength : (c.absorb v).bufferLength.val = (c.bufferLength.val + 1) % 64 := by
  rcases bufferLength_cases c with h | h
  · rw [absorb_of_lt c v h]; exact (Nat.mod_eq_of_lt h).symm
  · rw [absorb_of_full c v h, h]; rfl

@[simp] theorem absorbAll_nil : c.absorbAll [] = c := rfl

@[simp] theorem absorbAll_cons : c.absorbAll (v :: bs) = (c.absorb v).absorbAll bs := rfl

/-- Absorbing two sequences one after the other is absorbing them joined. -/
theorem absorbAll_append (bs' : List Byte) : c.absorbAll (bs ++ bs') = (c.absorbAll bs).absorbAll bs' := by
  simp [Context.absorbAll]

@[simp] theorem absorbAll_totalBytes : (c.absorbAll bs).totalBytes = c.totalBytes := by
  induction bs generalizing c with
  | nil => rfl
  | cons v bs ih => simp [ih]

/-- `absorb` does not read `totalBytes`, so counting commutes with it (R100). -/
theorem count_absorb (n : Nat) : (c.count n).absorb v = (c.absorb v).count n := by
  rcases bufferLength_cases c with h | h
  · rw [absorb_of_lt c v h, absorb_of_lt (c.count n) v h]; rfl
  · rw [absorb_of_full c v h, absorb_of_full (c.count n) v h]; simp only [Context.count]

/-- Counting commutes with absorbing a sequence. -/
theorem count_absorbAll (n : Nat) : (c.count n).absorbAll bs = (c.absorbAll bs).count n := by
  induction bs generalizing c with
  | nil => rfl
  | cons v bs ih => simp [count_absorb, ih]

/-- Two counts are one count of the sum, modulo 2^64. -/
theorem count_count (n n' : Nat) : (c.count n).count n' = c.count (n + n') := by
  simp [Context.count, BitVec.ofNat_add, BitVec.add_assoc]

/-- The buffer bytes at or above `bufferLength` stay zero (R27). -/
theorem absorb_tail (h : ∀ i : Fin 64, c.bufferLength ≤ i → c.buf[i.val] = 0) :
    ∀ i : Fin 64, (c.absorb v).bufferLength ≤ i → (c.absorb v).buf[i.val] = 0 := by
  rcases bufferLength_cases c with hl | hl
  · rw [absorb_of_lt c v hl]
    intro i hi
    have hlt : c.bufferLength.val + 1 ≤ i.val := hi
    simp only [Vector.getElem_set]
    rw [if_neg (by omega)]
    exact h i (by rw [Fin.le_def]; omega)
  · rw [absorb_of_full c v hl]
    intro i _
    simp

end Absorb

/-- Byte `j` of block `i` of a byte sequence. -/
@[simp] theorem blockAt_getElem (bytes : List Byte) (i j : Nat) (h : j < 64) :
    (blockAt bytes i)[j] = bytes.getD (64 * i + j) 0 := by
  simp [blockAt]

/-- A byte sequence has `floor(|S| / 64)` full blocks (R25). -/
@[simp] theorem fullBlocks_length (bytes : List Byte) : (fullBlocks bytes).length = bytes.length / 64 := by
  simp [fullBlocks]

/-- The compressor unit holds, before step `n`, the working variables of the loop at the top of iteration `n`. -/
theorem run_succ (n : Nat) (r : CompressorRegs) :
    CompressorRegs.run (n + 1) r = (CompressorRegs.run n r).tick := by
  induction n generalizing r with
  | zero => rfl
  | succ n ih => rw [CompressorRegs.run, ih]; rfl

end Sys2Proof.Machine
end

