-- ==== Sys2Proof/Laws/Encoding.lean ====
section
/-! SUPPORT. The fields of a command word: reading back what `cmdWord` puts together, and putting a word together again
from its fields. -/

namespace Sys2Proof

section Fields

variable (rsv aux : Byte) (ctx : Slot) (opc : Byte)

/-- Bit `i` of a command word is a bit of the field that holds it (R70). -/
theorem cmdWord_getLsbD (i : Nat) :
    (cmdWord rsv aux ctx opc).getLsbD i =
      if i < 8 then opc.getLsbD i
      else if i < 16 then ctx.getLsbD (i - 8)
      else if i < 24 then aux.getLsbD (i - 16)
      else rsv.getLsbD (i - 24) := by
  change ((rsv ++ aux ++ ctx ++ opc : BitVec (8 + 8 + 8 + 8))).getLsbD i = _
  simp only [BitVec.getLsbD_append]
  by_cases h1 : i < 8
  · simp [h1]
  · by_cases h2 : i < 16
    · simp [h1, h2, show i - 8 < 8 by omega]
    · by_cases h3 : i < 24
      · simp [h1, h2, h3, show ¬ i - 8 < 8 by omega, show i - 8 - 8 = i - 16 by omega, show i - 16 < 8 by omega]
      · simp [h1, h2, h3, show ¬ i - 8 < 8 by omega, show ¬ i - 8 - 8 < 8 by omega,
          show i - 8 - 8 - 8 = i - 24 by omega]

@[simp] theorem opcField_cmdWord : opcField (cmdWord rsv aux ctx opc) = opc := by
  apply BitVec.eq_of_getLsbD_eq
  intro i hi
  simp [opcField, cmdWord_getLsbD, hi]

@[simp] theorem ctxField_cmdWord : ctxField (cmdWord rsv aux ctx opc) = ctx := by
  apply BitVec.eq_of_getLsbD_eq
  intro i hi
  simp [ctxField, cmdWord_getLsbD, hi, show 8 + i < 16 by omega]

@[simp] theorem auxField_cmdWord : auxField (cmdWord rsv aux ctx opc) = aux := by
  apply BitVec.eq_of_getLsbD_eq
  intro i hi
  simp [auxField, cmdWord_getLsbD, hi, show ¬ 16 + i < 8 by omega, show 16 + i < 24 by omega]

@[simp] theorem rsvField_cmdWord : rsvField (cmdWord rsv aux ctx opc) = rsv := by
  apply BitVec.eq_of_getLsbD_eq
  intro i hi
  simp [rsvField, cmdWord_getLsbD, hi, show ¬ 24 + i < 8 by omega, show ¬ 24 + i < 16 by omega]

end Fields

/-- A word is put together again from its four fields (R70). -/
theorem cmdWord_fields (w : Word) : cmdWord (rsvField w) (auxField w) (ctxField w) (opcField w) = w := by
  apply BitVec.eq_of_getLsbD_eq
  intro i hi
  rw [cmdWord_getLsbD]
  simp only [rsvField, auxField, ctxField, opcField, BitVec.getLsbD_extractLsb']
  split
  · simp_all
  · split
    · rw [show 8 + (i - 8) = i by omega]; simp; omega
    · split
      · rw [show 16 + (i - 16) = i by omega]; simp; omega
      · rw [show 24 + (i - 24) = i by omega]; simp; omega

end Sys2Proof
end

