-- ==== Sys2Proof/Laws/PerInstr.lean ====
section
/-! SUPPORT. Facts about every command as syntax, one lemma per constructor. Family `CommandFields`: each command's word
has a zero reserved field, its slot in `ctx`, and the opcode of its row (spec/30_encoding.md rules R70 to R75). -/

namespace Sys2Proof.Laws.CommandFields

/-- The fields of a command's word: `rsv` is zero, and `ctx` and `opc` hold the command's slot and opcode. -/
def Statement (i : Instr) : Prop :=
  rsvField (encode i) = 0 ∧
  (opcField (encode i), ctxField (encode i), auxField (encode i)) =
    match i with
    | .update k => (0x01, k, 0)
    | .updateByte k v => (0x02, k, v)
    | .digest k => (0x03, k, 0)
    | .digest16 k => (0x04, k, 0)
    | .reset k => (0x05, k, 0)
    | .clone k d => (0x06, k, d)

theorem update (k : Slot) : Statement (.update k) := by simp [Statement, encode]

theorem updateByte (k : Slot) (v : Byte) : Statement (.updateByte k v) := by simp [Statement, encode]

theorem digest (k : Slot) : Statement (.digest k) := by simp [Statement, encode]

theorem digest16 (k : Slot) : Statement (.digest16 k) := by simp [Statement, encode]

theorem reset (k : Slot) : Statement (.reset k) := by simp [Statement, encode]

theorem clone (k d : Slot) : Statement (.clone k d) := by simp [Statement, encode]

end Sys2Proof.Laws.CommandFields
end

