-- ==== Sys2Proof/Laws/Step.lean ====
section
/-! SUPPORT. What one command can do, said once: every command answers a next state, gives one response, leaves the ports
and the stream alone, and writes no slot but the one it names. -/

namespace Sys2Proof.Machine

/-- What the shared tail of a command leaves: one response more, and no slot but `j` written. -/
structure EndsOn (j : Slot) (s t : State) : Prop where
  responses : ∃ r, t.responses = s.responses ++ [r]
  ports : t.ports = s.ports
  commands : t.commands = s.commands
  slots : t.slots = s.slots ∨ ∃ c, t.slots = s.slots.set j.toNat c

theorem endsOn_raise (j : Slot) (e : Status) (s : State) : EndsOn j s (raise e s) :=
  ⟨⟨_, rfl⟩, rfl, rfl, .inl rfl⟩

theorem endsOn_respondDone (j : Slot) (s : State) : EndsOn j s (respondDone s) := ⟨⟨_, rfl⟩, rfl, rfl, .inl rfl⟩

theorem endsOn_respond_setSlot (j : Slot) (st : Status) (n : Word) (data : DigestBytes) (r : Region) (c : Context)
    (s : State) : EndsOn j s (respond st n data r (s.setSlot j c)) :=
  ⟨⟨_, rfl⟩, rfl, rfl, .inr ⟨c, rfl⟩⟩

theorem endsOn_withSlot (j k : Slot) (s : State) (body : Context → State) (h : ∀ c, EndsOn j s (body c)) :
    EndsOn j s (withSlot k s body) := by
  unfold withSlot
  split
  · exact h _
  · exact endsOn_raise ..

/-- Every command answers a next state, and ends on the slot it writes. -/
theorem exec_endsOn (i : Instr) (s : State) : ∃ t, exec i s = .next t ∧ EndsOn i.writes s t := by
  cases i with
  | update k =>
    refine ⟨_, rfl, endsOn_withSlot _ _ _ _ fun c => ?_⟩
    split
    · exact endsOn_respond_setSlot ..
    · exact endsOn_raise ..
  | updateByte k v => exact ⟨_, rfl, endsOn_withSlot _ _ _ _ fun c => endsOn_respond_setSlot ..⟩
  | digest k =>
    refine ⟨_, rfl, endsOn_withSlot _ _ _ _ fun c => ?_⟩
    split
    · exact endsOn_respond_setSlot ..
    · exact endsOn_raise ..
  | digest16 k => exact ⟨_, rfl, endsOn_withSlot _ _ _ _ fun c => endsOn_respond_setSlot ..⟩
  | reset k => exact ⟨_, rfl, endsOn_withSlot _ _ _ _ fun c => endsOn_respond_setSlot ..⟩
  | clone k d =>
    refine ⟨_, rfl, endsOn_withSlot _ _ _ _ fun c => endsOn_withSlot _ _ _ _ fun _ => ?_⟩
    split
    · exact endsOn_respond_setSlot ..
    · exact endsOn_respondDone ..

/-- Everything a command can do: answer with an error and change nothing else, or have the one effect of its kind on a slot
that exists, with its guard. -/
inductive CommandDoes (i : Instr) (s : State) : State → Prop
  | error (e : Status) (he : e ≠ .ok) : CommandDoes i s (raise e s)
  | update (k : Slot) (c : Context) (hi : i = .update k) (hc : s.slot? k = some c)
      (hu : updateStatus s.off s.len s.extent = .ok) :
      CommandDoes i s
        (respondDone (s.setSlot k (c.update (sourceBytes s.ports.region s.off.toNat s.len.toNat))))
  | updateByte (k : Slot) (v : Byte) (c : Context) (hi : i = .updateByte k v) (hc : s.slot? k = some c) :
      CommandDoes i s (respondDone (s.setSlot k (c.update [v])))
  | digest (k : Slot) (c : Context) (hi : i = .digest k) (hc : s.slot? k = some c)
      (hu : digestStatus s.off s.len s.extent = .ok) :
      CommandDoes i s
        (respond .ok 16 zeroData (outWriteAll s.ports.region s.off.toNat c.finalize.toList) (s.setSlot k Context.reset))
  | digest16 (k : Slot) (c : Context) (hi : i = .digest16 k) (hc : s.slot? k = some c) :
      CommandDoes i s (respond .ok 0 c.finalize s.ports.region (s.setSlot k Context.reset))
  | reset (k : Slot) (c : Context) (hi : i = .reset k) (hc : s.slot? k = some c) :
      CommandDoes i s (respondDone (s.setSlot k Context.reset))
  | clone (k d : Slot) (c c' : Context) (hi : i = .clone k d) (hc : s.slot? k = some c) (hd : s.slot? d = some c') :
      CommandDoes i s (respondDone (s.setSlot d c))

/-- A command on a slot that does not exist does nothing but answer. -/
theorem commandDoes_withSlot {i : Instr} {k : Slot} {s : State} {body : Context → State}
    (h : ∀ c, s.slot? k = some c → CommandDoes i s (body c)) : CommandDoes i s (withSlot k s body) := by
  cases hc : s.slot? k with
  | none => rw [withSlot_none _ hc]; exact .error _ (by decide)
  | some c => rw [withSlot_some _ hc]; exact h c hc

/-- A next state of a command is one of these. -/
theorem exec_cases {i : Instr} {s t : State} (h : exec i s = .next t) : CommandDoes i s t := by
  cases i with
  | update k =>
    cases h
    refine commandDoes_withSlot fun c hc => ?_
    rcases updateStatus_cases s.off s.len s.extent with hu | hu <;> simp only [hu]
    · exact .update k c rfl hc hu
    · exact .error _ (by decide)
  | updateByte k v => cases h; exact commandDoes_withSlot fun c hc => .updateByte k v c rfl hc
  | digest k =>
    cases h
    refine commandDoes_withSlot fun c hc => ?_
    rcases digestStatus_cases s.off s.len s.extent with hu | hu | hu <;> simp only [hu]
    · exact .digest k c rfl hc hu
    · exact .error _ (by decide)
    · exact .error _ (by decide)
  | digest16 k => cases h; exact commandDoes_withSlot fun c hc => .digest16 k c rfl hc
  | reset k => cases h; exact commandDoes_withSlot fun c hc => .reset k c rfl hc
  | clone k d =>
    cases h
    refine commandDoes_withSlot fun c hc => commandDoes_withSlot fun c' hd => ?_
    by_cases e : d = k
    · subst e
      simp only [ne_eq, not_true_eq_false, if_false]
      have := CommandDoes.clone (i := .clone d d) d d c c rfl hc hc
      rwa [setSlot_self hc] at this
    · simp only [ne_eq, e, not_false_eq_true, if_true]
      exact .clone k d c c' rfl hc hd

/-- What a step is: idle, the decoded command, or the answer to a word that does not decode. -/
theorem step_cases (s : State) :
    (s.commands = [] ∧ step s = .next s) ∨
    (∃ c rest i, s.commands = c :: rest ∧ decode s.nctx c.word = .ok i ∧ step s = exec i (accept c rest s)) ∨
    (∃ c rest e, s.commands = c :: rest ∧ decode s.nctx c.word = .error e ∧
      step s = .next (raise .illegalCommand (accept c rest s))) := by
  unfold step
  cases hc : s.commands with
  | nil => exact .inl ⟨rfl, rfl⟩
  | cons c rest =>
    cases hd : decode s.nctx c.word with
    | ok i => exact .inr (.inl ⟨c, rest, i, rfl, hd, by simp [hd]⟩)
    | error e => exact .inr (.inr ⟨c, rest, e, rfl, hd, by simp [hd]⟩)

/-- No step at all. -/
theorem run_zero (s : State) : run 0 s = .next s := rfl

/-- A run starts with a step and goes on from where it leads. -/
theorem run_of_step (n : Nat) (s s' : State) (h : step s = .next s') : run (n + 1) s = run n s' := by
  have h' : core.step s = .next s' := h
  simp only [run, Host.Core.run]
  rw [h']

end Sys2Proof.Machine
end

