-- ==== Sys2Proof/Tests/Slice0.lean ====
section
/-! SUPPORT. The model's own tests. Expected values are those of spec/95_test_vectors.md (named in each test) or written
out by hand from the encodings of spec/30_encoding.md rule R75; each `witness` theorem shows data that meet all hypotheses
of one statement of Certificates/Slice0/Obligations.lean together. -/

namespace Sys2Proof.Tests

open Sys2Proof.Machine

/-! ### Small states -/

/-- Two slots at power-on, with given operand ports. -/
def ported (region : Region) (offset length : Word) : State :=
  { State.powerOn 2 with ports := { region := region, offset := offset, length := length } }

/-- The bytes of "abc". -/
def abc : Region := [0x61, 0x62, 0x63]

/-- A region of 20 zero bytes (95_test_vectors.md §2.9). -/
def out20 : Region := List.replicate 20 0

/-- A state with `c` in slot 0 and a slot at reset in slot 1. -/
def holding (c : Context) (region : Region) (offset length : Word) : State :=
  (ported region offset length).setSlot 0 c

/-- A slot at reset that has absorbed "abc". -/
def abcSlot : Context :=
  { Context.reset with
    buf := ((Context.reset.buf.set 0 0x61).set 1 0x62).set 2 0x63, bufferLength := 3, totalBytes := 3 }

/-- A slot one byte short of a full block of zeros, its byte count at its largest (95_test_vectors.md §2.7). -/
def fullestSlot : Context := { Context.reset with bufferLength := 63, totalBytes := BitVec.ofNat 64 (2 ^ 64 - 1) }

/-- The last response of a next state. -/
def lastResponse : Host.Outcome State Fault Refusal → Option Response
  | .next s => s.responses.getLast?
  | .fault _ => none
  | .refused _ => none

/-- Slot `k` of a next state. -/
def slotAfter (k : Slot) : Host.Outcome State Fault Refusal → Option Context
  | .next s => s.slot? k
  | .fault _ => none
  | .refused _ => none

/-! ### Decoding, by words written out from the encoding strings of R75 -/

theorem test_decode_update : decode 2 0b00000000000000000000000100000001 = .ok (.update 1) := by decide
theorem test_decode_update_byte : decode 2 0b00000000011000010000000000000010 = .ok (.updateByte 0 0x61) := by decide
theorem test_decode_digest : decode 2 0b00000000000000000000000100000011 = .ok (.digest 1) := by decide
theorem test_decode_digest16 : decode 2 0b00000000000000000000000100000100 = .ok (.digest16 1) := by decide
theorem test_decode_reset : decode 3 0b00000000000000000000001000000101 = .ok (.reset 2) := by decide
theorem test_decode_clone : decode 2 0b00000000000000010000000000000110 = .ok (.clone 0 1) := by decide

/-- 95_test_vectors.md §2.1, and R87's `RESET c2`. -/
theorem test_encode_examples :
    encode (.updateByte 0 0x61) = 0x00610002 ∧ encode (.clone 0 1) = 0x00010006 ∧
    encode (.digest16 1) = 0x00000104 ∧ encode (.reset 2) = 0x00000205 ∧
    encode (.updateByte 1 0xff) = 0x00ff0102 ∧ encode (.update 1) = 0x00000101 ∧ encode (.digest 0) = 0x00000003 := by
  decide

/-- 95_test_vectors.md §2.1: each check of R76 refuses a word that fails it alone. -/
theorem test_decode_refusals :
    decode 2 0x01000005 = .error .reservedFieldSet ∧ decode 2 0x00000007 = .error .reservedOpcode ∧
    decode 2 0x00050001 = .error .auxFieldSet ∧ decode 2 0x00000201 = .error .slotOutOfRange ∧
    decode 2 0x00020006 = .error .destinationOutOfRange := by decide

/-- The table's word of each row, with every bit of its operand fields set, on the largest block. -/
theorem test_table_words :
    decodeTableWord 32 0x0000ff01 = some (.update 0xff) ∧ decodeTableWord 32 0x00ffff02 = some (.updateByte 0xff 0xff) ∧
    decodeTableWord 32 0x0000ff03 = some (.digest 0xff) ∧ decodeTableWord 32 0x0000ff04 = some (.digest16 0xff) ∧
    decodeTableWord 32 0x0000ff05 = some (.reset 0xff) ∧ decodeTableWord 32 0x00ffff06 = some (.clone 0xff 0xff) ∧
    decodeTableWord 32 0x00000000 = none := by decide

/-- The word placed by `withFetchWord` is the next command to run, and it is taken. -/
theorem test_fetch_word_runs :
    (lastResponse (step (State.reset.withFetchWord 32 0x00610002))).map Response.status = some .ok ∧
    (slotAfter 0 (step (State.reset.withFetchWord 32 0x00610002))).map Context.bufferLength = some 1 := by decide

/-- R87's syntax. -/
theorem test_assembler :
    (Instr.clone 0 1).toAsm "" 0 0 = "CLONE c0, c1" ∧
    (Instr.update 0).toAsm "abc" 0 3 = "UPDATE c0, @abc, 0, 3" := by decide +kernel

/-! ### Well-formedness: an ill-formed term for each check, which the check refuses -/

theorem test_wf_update : Instr.wf 2 (.update 2) = false ∧ Instr.wf 2 (.update 1) = true := by decide
theorem test_wf_update_byte : Instr.wf 2 (.updateByte 2 0) = false ∧ Instr.wf 2 (.updateByte 1 0xff) = true := by decide
theorem test_wf_digest : Instr.wf 2 (.digest 2) = false ∧ Instr.wf 2 (.digest 1) = true := by decide
theorem test_wf_digest16 : Instr.wf 2 (.digest16 2) = false ∧ Instr.wf 2 (.digest16 1) = true := by decide
theorem test_wf_reset : Instr.wf 2 (.reset 2) = false ∧ Instr.wf 2 (.reset 1) = true := by decide
theorem test_wf_clone :
    Instr.wf 2 (.clone 2 0) = false ∧ Instr.wf 2 (.clone 0 2) = false ∧ Instr.wf 2 (.clone 1 0) = true := by decide

/-! ### Compressor (95_test_vectors.md §2.2, §2.3, §2.6) -/

theorem test_mixing :
    mixF 0x67452301 0xefcdab89 0x98badcfe = 0xffffffff ∧ mixG 0x67452301 0xefcdab89 0x98badcfe = 0x67452301 ∧
    mixH 0x67452301 0xefcdab89 0x98badcfe = 0x10325476 ∧ mixI 0x67452301 0xefcdab89 0x98badcfe = 0x88888888 := by decide

theorem test_rotate :
    rotl32 0x80000000 1 = 0x00000001 ∧ rotl32 0x12345678 16 = 0x56781234 ∧ rotl32 0xdeadbeef 23 = 0x77ef56df := by decide

/-- The step trace for "abc": after steps 0, 16 and 63. -/
theorem test_step_trace :
    let blk : Block := (abcSlot.buf.set 3 0x80).set 56 0x18
    let unit := CompressorRegs.start HashState.iv blk
    (CompressorRegs.run 1 unit).w = ⟨0x10325476, 0xd6d117b4, 0xefcdab89, 0x98badcfe⟩ ∧
    (CompressorRegs.run 17 unit).w = ⟨0xa1051895, 0x3e9e9126, 0x72aff2e0, 0xe396856b⟩ ∧
    (CompressorRegs.run 64 unit).w = ⟨0x310ade8f, 0xc08226b3, 0xe484b9d8, 0x624d8cb2⟩ := by decide +kernel

/-! ### Commands (95_test_vectors.md §2.7 to §2.10) -/

/-- `UPDATE c0, @abc, 1, 2` absorbs `62 63`. -/
theorem test_update_window :
    slotAfter 0 (exec (.update 0) (ported abc 1 2)) =
      some { Context.reset with buf := (Context.reset.buf.set 0 0x62).set 1 0x63, bufferLength := 2, totalBytes := 2 } := by
  decide

/-- The bounds of UPDATE: `off = |r|` with `len = 0` is accepted; one byte more, a negative offset or length, and a sum
above 2^31 - 1 are refused. -/
theorem test_update_bounds :
    (lastResponse (exec (.update 0) (ported abc 3 0))).map Response.status = some .ok ∧
    (lastResponse (exec (.update 0) (ported abc 2 2))).map Response.status = some .bufferBoundsError ∧
    (lastResponse (exec (.update 0) (ported abc 0xffffffff 1))).map Response.status = some .bufferBoundsError ∧
    (lastResponse (exec (.update 0) (ported abc 0 0xffffffff))).map Response.status = some .bufferBoundsError ∧
    (lastResponse (exec (.update 0) (ported abc 0x7fffffff 0x7fffffff))).map Response.status =
      some .bufferBoundsError := by decide

/-- The byte that fills a block of zeros: one compression, and `totalBytes` wraps to 0. -/
theorem test_update_byte_fills_and_wraps :
    slotAfter 0 (exec (.updateByte 0 0x00) (holding fullestSlot [] 0 0)) =
      some { Context.reset with state := ⟨0x031f1dac, 0x6ea58ed0, 0x1fab67b7, 0x74317791⟩ } := by decide +kernel

/-- `DIGEST c0, @out, 4, 16` on "abc". -/
theorem test_digest_abc :
    (lastResponse (exec (.digest 0) (holding abcSlot out20 4 16))).map (fun r => (r.status, r.count, r.region)) =
      some (.ok, 16, [0, 0, 0, 0, 0x90, 0x01, 0x50, 0x98, 0x3c, 0xd2, 0x4f, 0xb0, 0xd6, 0x96, 0x3f, 0x7d, 0x28, 0xe1,
        0x7f, 0x72]) ∧
    slotAfter 0 (exec (.digest 0) (holding abcSlot out20 4 16)) = some Context.reset := by decide +kernel

/-- The errors of DIGEST, and their order (D9, D10). -/
theorem test_digest_errors :
    (lastResponse (exec (.digest 0) (ported out20 0 15))).map Response.status = some .partialDigestUnsupportedError ∧
    (lastResponse (exec (.digest 0) (ported out20 30 8))).map Response.status = some .partialDigestUnsupportedError ∧
    (lastResponse (exec (.digest 0) (ported out20 5 16))).map Response.status = some .insufficientOutputSpaceError ∧
    (lastResponse (exec (.digest 0) (ported out20 0xffffffff 16))).map Response.status =
      some .insufficientOutputSpaceError ∧
    (lastResponse (exec (.digest 0) (ported out20 21 16))).map Response.status = some .insufficientOutputSpaceError := by
  decide

/-- `DIGEST16 c0` at reset: the digest of the empty message. -/
theorem test_digest16_empty :
    (lastResponse (exec (.digest16 0) (State.powerOn 2))).map (fun r => (r.count, r.data.toList)) =
      some (0, [0xd4, 0x1d, 0x8c, 0xd9, 0x8f, 0x00, 0xb2, 0x04, 0xe9, 0x80, 0x09, 0x98, 0xec, 0xf8, 0x42, 0x7e]) := by
  decide +kernel

/-- 56 bytes of `61` take two final compressions (§2.8). -/
theorem test_digest_of_56_bytes :
    ((Context.reset.update (List.replicate 56 0x61)).finalize).toList =
      [0x3b, 0x0c, 0x8a, 0xc7, 0x03, 0xf8, 0x28, 0xb0, 0x4c, 0x6c, 0x19, 0x70, 0x06, 0xd1, 0x72, 0x18] := by
  decide +kernel

/-- The bit length of 2^61 bytes wraps to 0 (§2.8). -/
theorem test_bit_length_wraps : bitLength (BitVec.ofNat 64 (2 ^ 61)) = 0 := by decide

/-- RESET discards a partial block; no other slot changes. -/
theorem test_reset :
    slotAfter 0 (exec (.reset 0) (holding abcSlot [] 0 0)) = some Context.reset ∧
    slotAfter 0 (exec (.reset 1) (holding abcSlot [] 0 0)) = some abcSlot := by decide

/-- CLONE copies slot 0 into slot 1, and slot 0 stays; from slot 1 into slot 0 it is lost. -/
theorem test_clone :
    slotAfter 1 (exec (.clone 0 1) (holding abcSlot [] 0 0)) = some abcSlot ∧
    slotAfter 0 (exec (.clone 0 1) (holding abcSlot [] 0 0)) = some abcSlot ∧
    slotAfter 0 (exec (.clone 1 0) (holding abcSlot [] 0 0)) = some Context.reset := by decide

/-- 95_test_vectors.md §3, P3 step 8: `RESET c2` on two slots is answered with `IllegalCommand`. -/
theorem test_illegal_word_is_answered :
    (lastResponse (step (State.reset.withFetchWord 32 0x00000205))).map Response.status = some .illegalCommand := by
  decide

/-! ### Witnesses: data that meet all hypotheses of a statement together -/

theorem witness_DecodeOfEncodeIsTheCommand : Instr.wf 2 (.clone 0 1) = true := by decide

theorem witness_EncodeOfDecodeIsTheWord : decode 2 0x00ff0102 = .ok (.updateByte 1 0xff) := by decide

/-- One word for each clause of R77, each at the boundary of its range, and a word beside it that none covers. -/
theorem witness_DecodeIsTotalByOpcode :
    (ReservedWord 2 0x00000000 ∧ ReservedWord 2 0x00000007 ∧ ReservedWord 2 0x000000ff ∧ ReservedWord 2 0x01000005 ∧
      ReservedWord 2 0x00010001 ∧ ReservedWord 2 0x00010005 ∧ ReservedWord 2 0x00000201 ∧ ReservedWord 2 0x00020006) ∧
    ¬ ReservedWord 2 0x00010106 := by
  refine ⟨⟨?_, ?_, ?_, ?_, ?_, ?_, ?_, ?_⟩, ?_⟩ <;> decide

theorem witness_OpcodeRowsMatchAndAreDisjoint :
    (0x00000101 : Word) &&& tableMask (.update 0) = tableMatch (.update 0) := by decide

theorem witness_StepRunsTheDecodedCommand :
    (State.reset.withFetchWord 32 0x00000001).commands = [{ word := 0x00000001, ports := fetchPorts }] ∧
    decode State.reset.nctx 0x00000001 = .ok (.update 0) ∧ State.reset.commands = [] := by decide

theorem witness_ReservedWordIsAnswered :
    (State.reset.withFetchWord 32 0x00000207).commands = [{ word := 0x00000207, ports := fetchPorts }] ∧
    ReservedWord (State.reset.withFetchWord 32 0x00000207).nctx 0x00000207 := by
  constructor <;> decide

theorem witness_EveryCommandGetsOneResponse :
    (State.reset.withFetchWord 32 0x00000004).commands = { word := 0x00000004, ports := fetchPorts } :: [] := by decide

theorem witness_CommandWithoutSlotIsAnswered :
    Instr.wf (State.powerOn 2).nctx (.reset 2) = false ∧ Instr.wf (State.powerOn 2).nctx (.clone 0 2) = false := by
  decide

theorem witness_PowerOnHoldsCreationValues : 0 < 1 ∧ 255 < 256 := by decide

theorem witness_InvariantHoldsAtPowerOn : 1 ≤ 1 ∧ 1 ≤ 256 ∧ 256 ≤ 256 := by decide

theorem witness_MixingFunctionsByBit : 0 < 32 ∧ 31 < 32 := by decide

theorem witness_UnitHoldsTheLoopVariables : 0 ≤ 64 ∧ 64 ≤ 64 := by decide

theorem witness_RotateIsLeftRotation : 0 < 1 ∧ 1 < 32 ∧ 0 < 31 ∧ 31 < 32 := by decide

theorem witness_AbsorbOneByte :
    abcSlot.bufferLength.val + 1 < 64 ∧ fullestSlot.bufferLength.val = 63 := by decide

theorem witness_AbsorbWithinBlockFrame : abcSlot.bufferLength.val + (List.replicate 60 (0 : Byte)).length < 64 := by decide

theorem witness_BulkPathLeavesTheSameRecord : abcSlot.inv := by decide

/-- UPDATE: accepted with `off + len = |r|`, and with `len = 0` at the end of the region; refused one byte beyond it, and
with a negative offset or length. -/
theorem witness_UpdateAbsorbsOrIsRefused :
    ((ported abc 1 2).slot? 0 = some Context.reset ∧ 0 ≤ (ported abc 1 2).off ∧ 0 ≤ (ported abc 1 2).len ∧
      (ported abc 1 2).off + (ported abc 1 2).len ≤ (ported abc 1 2).ports.region.length ∧
      ([0x62, 0x63] : List Byte).length = (ported abc 1 2).len.toNat ∧
      ∀ i, i < 2 → ([0x62, 0x63] : List Byte)[i]? = (ported abc 1 2).ports.region[(ported abc 1 2).off.toNat + i]?) ∧
    (ported abc 3 0).off + (ported abc 3 0).len ≤ (ported abc 3 0).ports.region.length ∧
    (ported abc 2 2).off + (ported abc 2 2).len > (ported abc 2 2).ports.region.length ∧
    (ported abc 0xffffffff 1).off < 0 ∧ (ported abc 0 0xffffffff).len < 0 := by decide

theorem witness_UpdateByteAbsorbsItsByte : (ported [] 0 0).slot? 1 = some Context.reset := by decide

theorem witness_ResetRestoresCreationValues : (1 : Slot).toNat < (ported [] 0 0).nctx := by decide

theorem witness_CloneCopiesTheSlot :
    (holding abcSlot [] 0 0).slot? 0 = some abcSlot ∧ (1 : Slot).toNat < (holding abcSlot [] 0 0).nctx := by decide

/-- DIGEST: accepted with `len = 16` and exactly 16 bytes of room. -/
theorem witness_DigestWritesSixteenBytes :
    (holding abcSlot out20 4 16).slot? 0 = some abcSlot ∧ 16 ≤ (holding abcSlot out20 4 16).len ∧
    0 ≤ (holding abcSlot out20 4 16).off ∧
    (holding abcSlot out20 4 16).off + 16 ≤ (holding abcSlot out20 4 16).ports.region.length := by decide

/-- DIGEST's refusals at their boundaries: `len = 15` and `len = -1`; a negative offset, an offset beyond the region and 15
bytes of room. -/
theorem witness_DigestRefusalsInOrder :
    (0 : Slot).toNat < (ported out20 0 15).nctx ∧ (ported out20 0 15).len < 16 ∧ (ported out20 0 0xffffffff).len < 16 ∧
    16 ≤ (ported out20 5 16).len ∧ (ported out20 0xffffffff 16).off < 0 ∧
    (ported out20 21 16).off > (ported out20 21 16).ports.region.length ∧
    ((ported out20 5 16).ports.region.length : Int) - (ported out20 5 16).off < 16 := by decide

theorem witness_Digest16ReturnsTheDigest : (holding abcSlot [] 0 0).slot? 0 = some abcSlot := by decide

theorem witness_PaddingShape : 0 < 64 ∧ 55 < 64 ∧ 56 < 64 ∧ 63 < 64 := by decide

theorem witness_LengthBytesLittleEndian : 0 < 8 ∧ 7 < 8 := by decide

theorem witness_FinalizationCompressions : abcSlot.inv ∧ abcSlot.totalBytes.toNat % 64 ≤ 55 := by decide

theorem witness_OtherSlotsUnchanged :
    (∃ t, exec (.reset 0) (holding abcSlot [] 0 0) = .next t) ∧ (1 : Nat) ≠ (Instr.reset 0).writes.toNat :=
  ⟨⟨_, rfl⟩, by decide⟩

/-- An accepted DIGEST with a byte on each side of the written ones, and a refused one. -/
theorem witness_RegionFrame :
    (∃ t r, exec (.digest 0) (holding abcSlot (List.replicate 21 0) 4 16) = .next t ∧
      t.responses = (holding abcSlot (List.replicate 21 0) 4 16).responses ++ [r] ∧
      3 < (holding abcSlot (List.replicate 21 0) 4 16).off.toNat ∧
      (holding abcSlot (List.replicate 21 0) 4 16).off.toNat + 16 ≤ 20) ∧
    (∃ t r, exec (.digest 0) (ported out20 5 16) = .next t ∧
      t.responses = (ported out20 5 16).responses ++ [r] ∧ r.status ≠ .ok) :=
  ⟨⟨_, _, rfl, rfl, by decide, by decide⟩, ⟨_, _, rfl, rfl, by decide⟩⟩

/-- A refused UPDATE, and a step on a word that does not decode. -/
theorem witness_ErrorsLeaveNoTrace :
    (∃ t r, exec (.update 0) (ported abc 2 2) = .next t ∧ t.responses = (ported abc 2 2).responses ++ [r] ∧
      r.status ≠ .ok) ∧
    (∃ c rest t r, (State.reset.withFetchWord 32 0x00000007).commands = c :: rest ∧
      step (State.reset.withFetchWord 32 0x00000007) = .next t ∧
      t.responses = (State.reset.withFetchWord 32 0x00000007).responses ++ [r] ∧ r.status ≠ .ok) :=
  ⟨⟨_, _, rfl, rfl, by decide⟩, ⟨_, _, _, _, rfl, rfl, rfl, by decide⟩⟩

/-- Every command succeeds on one state, and each that can fail fails on another: the cases of the statements on
`totalBytes` and on the state words. -/
theorem witness_every_command_succeeds_and_the_checked_ones_fail :
    (∀ i ∈ [Instr.update 0, .updateByte 0 0x61, .digest 0, .digest16 0, .reset 0, .clone 0 1],
      (lastResponse (exec i (holding abcSlot out20 4 16))).map Response.status = some .ok) ∧
    (∀ i ∈ [Instr.update 0, .digest 0],
      (lastResponse (exec i (holding abcSlot abc 4 16))).map Response.status ≠ some .ok) := by decide +kernel

theorem witness_ResponseCountAndData :
    (∃ t r, exec (.digest 0) (ported out20 4 16) = .next t ∧ t.responses = (ported out20 4 16).responses ++ [r] ∧
      r.status = .ok) ∧
    (∃ t r, exec (.digest16 0) (ported [] 0 0) = .next t ∧ t.responses = (ported [] 0 0).responses ++ [r] ∧
      r.status = .ok ∧ (ported [] 0 0).slot? 0 = some Context.reset) :=
  ⟨⟨_, _, rfl, rfl, rfl⟩, ⟨_, _, rfl, rfl, rfl, rfl⟩⟩

theorem witness_TotalBytesAccounting :
    ∃ t r c', exec (.update 0) (ported abc 1 2) = .next t ∧ t.responses = (ported abc 1 2).responses ++ [r] ∧
      (ported abc 1 2).slots[0]? = some Context.reset ∧ t.slots[0]? = some c' ∧ r.status = .ok ∧
      0 = (Instr.update 0).writes.toNat :=
  ⟨_, _, _, rfl, rfl, rfl, rfl, rfl, rfl⟩

theorem witness_StateWordsChangeOnlyByCompression :
    ∃ t r c', exec (.updateByte 0 0) (holding fullestSlot [] 0 0) = .next t ∧
      t.responses = (holding fullestSlot [] 0 0).responses ++ [r] ∧
      (holding fullestSlot [] 0 0).slots[0]? = some fullestSlot ∧ t.slots[0]? = some c' ∧ r.status = .ok ∧
      0 = (Instr.updateByte 0 0).writes.toNat :=
  ⟨_, _, _, rfl, rfl, rfl, rfl, rfl, rfl⟩

theorem witness_DigestLeavesTheSlotAtReset :
    ∃ t r, exec (.digest16 0) (holding abcSlot [] 0 0) = .next t ∧
      t.responses = (holding abcSlot [] 0 0).responses ++ [r] ∧ r.status = .ok :=
  ⟨_, _, rfl, rfl, rfl⟩

theorem witness_ResponsesAreNotRead : ∃ t, exec (.update 0) (ported abc 0 3) = .next t := ⟨_, rfl⟩

theorem witness_PortsAreIgnored :
    (Instr.clone 0 1).readsPorts = false ∧ ∃ t, exec (.clone 0 1) (ported abc 0 3) = .next t :=
  ⟨rfl, ⟨_, rfl⟩⟩

/-- Two regions of one extent that differ outside the window `1 .. 2` alone. -/
theorem witness_UpdateReadsOnlyItsWindow :
    ([0x00, 0x62, 0x63] : Region).length = (ported abc 1 2).ports.region.length ∧
    (∀ a : Fin 4, 1 ≤ a.val → a.val < 3 →
      ([0x00, 0x62, 0x63] : Region)[a.val]? = (ported abc 1 2).ports.region[a.val]?) ∧
    ∃ t, exec (.update 0) (ported abc 1 2) = .next t :=
  ⟨by decide, by decide, ⟨_, rfl⟩⟩

/-- Two slots that differ in a byte above `bufferLength` alone. -/
theorem witness_StaleBytesAreUnobservable :
    abcSlot ≠ { abcSlot with buf := abcSlot.buf.set 3 0xff } ∧
    ∀ i : Fin 64, i < abcSlot.bufferLength →
      abcSlot.buf[i.val] = ({ abcSlot with buf := abcSlot.buf.set 3 0xff } : Context).buf[i.val] := by decide

theorem witness_InvariantIsKeptByEveryStep :
    (State.reset.withFetchWord 32 0x00000001).inv ∧ ∃ t, step (State.reset.withFetchWord 32 0x00000001) = .next t :=
  ⟨by decide, ⟨_, rfl⟩⟩

/-- The record of 10_state.md R25 for "abc". -/
theorem abcSlot_represents_abc : Represents abc abcSlot := ⟨rfl, by decide, by decide, by decide⟩

theorem reset_represents_nothing : Represents [] Context.reset := ⟨rfl, rfl, rfl, by decide⟩

/-- "abc" in slot 0 and nothing in slot 1. -/
theorem witness_SlotsRepresentTheirHistories :
    (∀ j c, (holding abcSlot abc 0 3).slots[j]? = some c → Represents (if j = 0 then abc else []) c) ∧
    ∃ t, exec (.update 0) (holding abcSlot abc 0 3) = .next t := by
  refine ⟨fun j c h => ?_, ⟨_, rfl⟩⟩
  match j, h with
  | 0, h => cases h; exact abcSlot_represents_abc
  | 1, h => cases h; exact reset_represents_nothing
  | j + 2, h => cases h

theorem witness_DigestsAreMd5OfTheMessage :
    (holding abcSlot out20 4 16).slot? 0 = some abcSlot ∧ Represents abc abcSlot ∧
    16 ≤ (holding abcSlot out20 4 16).len ∧ 0 ≤ (holding abcSlot out20 4 16).off ∧
    (holding abcSlot out20 4 16).off + 16 ≤ (holding abcSlot out20 4 16).ports.region.length :=
  ⟨by decide, abcSlot_represents_abc, by decide, by decide, by decide⟩

/-- A stream of one UPDATE_BYTE and one UPDATE. -/
def twoFeeds : State :=
  { State.powerOn 2 with
    commands := [Command.plain (.updateByte 0 0x61), updateAllCommand 0 [0x62, 0x63]] }

theorem witness_ChunkingInvariance :
    twoFeeds.slot? 0 = some Context.reset ∧
    FeedsAll twoFeeds.nctx 0 twoFeeds.commands [[0x61], [0x62, 0x63]] :=
  ⟨by decide, .inl ⟨0x61, by decide, rfl⟩, .inr ⟨by decide, by decide, by decide, by decide, by decide⟩, trivial⟩

/-- "abc" in slot 0, cloned into slot 1, then one byte for the other slot. -/
def cloneThenFeed (k : Slot) : State :=
  { holding abcSlot [] 0 0 with commands := [Command.plain (.clone 0 1), Command.plain (.updateByte k 0x61)] }

theorem writesOnly_updateByte (k : Slot) (h : Instr.wf 2 (.updateByte k 0x61) = true) :
    WritesOnly 2 k [Command.plain (.updateByte k 0x61)] := by
  intro c hc i hi
  rw [List.mem_singleton.1 hc] at hi
  have hd : decode 2 (encode (.updateByte k 0x61)) = .ok (.updateByte k 0x61) := by
    simpa [decode, encode, decodeUpdateByte, Instr.wf] using h
  rw [show (Command.plain (.updateByte k 0x61)).word = encode (.updateByte k 0x61) from rfl, hd] at hi
  cases hi
  rfl

theorem witness_CloneIndependence :
    (1 : Slot) ≠ 0 ∧ (cloneThenFeed 0).slot? 0 = some abcSlot ∧
    decode (cloneThenFeed 0).nctx (Command.plain (.clone 0 1)).word = .ok (.clone 0 1) ∧
    (∃ t, run 2 (cloneThenFeed 0) = .next t) ∧ (∃ t, run 2 (cloneThenFeed 1) = .next t) ∧
    WritesOnly (cloneThenFeed 0).nctx 0 [Command.plain (.updateByte 0 0x61)] ∧
    WritesOnly (cloneThenFeed 1).nctx 1 [Command.plain (.updateByte 1 0x61)] :=
  ⟨by decide, by decide, by decide, ⟨_, rfl⟩, ⟨_, rfl⟩, writesOnly_updateByte 0 (by decide),
    writesOnly_updateByte 1 (by decide)⟩

theorem witness_CommandsOnDistinctSlotsCommute :
    decode 2 (Command.plain (.updateByte 0 0x61)).word = .ok (.updateByte 0 0x61) ∧
    decode 2 (Command.plain (.reset 1)).word = .ok (.reset 1) ∧
    ∀ k ∈ (Instr.updateByte 0 0x61).touches, k ∉ (Instr.reset 1).touches := by decide

theorem witness_HashPseudoCommandIsMd5 :
    (0 : Slot).toNat < (State.powerOn 2).nctx ∧ abc.length ≤ Config.maxExtent ∧
    ({ State.powerOn 2 with commands := hashCommands 0 abc } : State).commands = hashCommands 0 abc := by decide

end Sys2Proof.Tests
end

section
/-! PROOFS. The digest of a slot is MD5 of the message it stands for (spec/10_state.md rule R25, spec/42_finalizer.md rules
R170 to R175): absorbing a byte keeps `Represents`, the padding completes the message to the padded message, and so the
state words that `finalize` serializes are the fold of `compress` over its blocks. -/

namespace Sys2Proof.Machine

/-! ### Full blocks of a sequence that grows by one byte -/

/-- A full block of a byte sequence is a block of every extension of it. -/
theorem blockAt_append_of_full (bytes bs : List Byte) (i : Nat) (h : i < bytes.length / 64) :
    blockAt (bytes ++ bs) i = blockAt bytes i := by
  ext j hj : 1
  rw [blockAt_getElem _ _ _ hj, blockAt_getElem _ _ _ hj, List.getD_append _ _ _ _ (by omega)]

/-- The blocks before the last one are those of the sequence without its extension. -/
theorem map_blockAt_append (bytes bs : List Byte) :
    (List.range (bytes.length / 64)).map (blockAt (bytes ++ bs)) = fullBlocks bytes :=
  List.map_congr_left fun i hi => blockAt_append_of_full bytes bs i (List.mem_range.1 hi)

/-- A byte that does not fill a block leaves the full blocks as they are. -/
theorem hashBlocks_snoc_of_lt (bytes : List Byte) (v : Byte) (h : bytes.length % 64 + 1 < 64) :
    hashBlocks (bytes ++ [v]) = hashBlocks bytes := by
  have hdiv : (bytes ++ [v]).length / 64 = bytes.length / 64 := by
    rw [List.length_append, List.length_singleton]; omega
  rw [hashBlocks, fullBlocks, hdiv, map_blockAt_append, hashBlocks]

/-- A byte that fills a block adds that block to the fold. -/
theorem hashBlocks_snoc_of_full (bytes : List Byte) (v : Byte) (h : bytes.length % 64 + 1 = 64) :
    hashBlocks (bytes ++ [v]) = compress (hashBlocks bytes) (blockAt (bytes ++ [v]) (bytes.length / 64)) := by
  have hdiv : (bytes ++ [v]).length / 64 = bytes.length / 64 + 1 := by
    rw [List.length_append, List.length_singleton]; omega
  rw [hashBlocks, fullBlocks, hdiv, List.range_succ, List.map_append, map_blockAt_append, List.foldl_append, hashBlocks]
  rfl

/-! ### Absorbing keeps `Represents` -/

/-- The buffer with the next byte stored holds the rest of the sequence with that byte at its end, and zeros above. -/
theorem Represents.buf_set {bytes : List Byte} {c : Context} (h : Represents bytes c) (v : Byte) (i : Fin 64) :
    (c.buf.set c.bufferLength.val v)[i.val] =
      if i.val < bytes.length % 64 + 1 then (bytes ++ [v]).getD (64 * (bytes.length / 64) + i.val) 0 else 0 := by
  obtain ⟨-, hlen, -, hbuf⟩ := h
  rw [Vector.getElem_set, hbuf i, hlen]
  by_cases hi : bytes.length % 64 = i.val
  · rw [if_pos hi, if_pos (by omega), List.getD_append_right _ _ _ _ (by omega),
      show 64 * (bytes.length / 64) + i.val - bytes.length = 0 by omega]
    rfl
  · rw [if_neg hi]
    by_cases hlt : i.val < bytes.length % 64
    · rw [if_pos hlt, if_pos (by omega), List.getD_append _ _ _ _ (by omega)]
    · rw [if_neg hlt, if_neg (by omega)]

/-- Counting and absorbing one byte: the record then stands for the sequence with that byte at its end (R25, R100). -/
theorem Represents.update_singleton {bytes : List Byte} {c : Context} (h : Represents bytes c) (v : Byte) :
    Represents (bytes ++ [v]) (c.update [v]) := by
  have hset := h.buf_set v
  obtain ⟨hstate, hlen, htotal, -⟩ := h
  have hlength : (bytes ++ [v]).length = bytes.length + 1 := by simp
  have hcount : c.totalBytes + BitVec.ofNat 64 1 = BitVec.ofNat 64 (bytes ++ [v]).length := by
    rw [htotal, hlength, BitVec.ofNat_add]
  have hupdate : c.update [v] = (c.absorb v).count 1 := count_absorb c v 1
  rw [hupdate]
  rcases bufferLength_cases c with hc | hc
  · have hmod : (bytes ++ [v]).length % 64 = bytes.length % 64 + 1 := by omega
    have hdiv : (bytes ++ [v]).length / 64 = bytes.length / 64 := by omega
    rw [absorb_of_lt c v hc]
    refine ⟨?_, ?_, hcount, fun i => ?_⟩
    · rw [hashBlocks_snoc_of_lt bytes v (by omega)]; exact hstate
    · rw [hmod, ← hlen]; rfl
    · rw [hmod, hdiv]; exact hset i
  · have hmod : (bytes ++ [v]).length % 64 = 0 := by omega
    have hblock : c.buf.set c.bufferLength.val v = blockAt (bytes ++ [v]) (bytes.length / 64) := by
      ext j hj : 1
      rw [hset ⟨j, hj⟩, blockAt_getElem _ _ _ hj]
      exact if_pos (by omega)
    rw [absorb_of_full c v hc]
    refine ⟨?_, hmod.symm, hcount, fun i => ?_⟩
    · rw [hashBlocks_snoc_of_full bytes v (by omega), ← hstate, ← hblock]; rfl
    · rw [hmod, if_neg (Nat.not_lt_zero _)]; exact Vector.getElem_replicate _

/-- Updating with a sequence is updating with its bytes one by one. -/
theorem update_cons (c : Context) (v : Byte) (bs : List Byte) : c.update (v :: bs) = (c.update [v]).update bs := by
  have hone : (c.update [v]).count bs.length = (c.count (bs.length + 1)).absorb v := by
    rw [Nat.add_comm, ← count_count, count_absorb]; rfl
  rw [Context.update, Context.update, hone]
  rfl

/-- The state invariant of R25 over an UPDATE: the record then stands for the sequence extended by the absorbed bytes. -/
theorem Represents.update {bytes : List Byte} {c : Context} (h : Represents bytes c) (bs : List Byte) :
    Represents (bytes ++ bs) (c.update bs) := by
  induction bs generalizing bytes c with
  | nil => simpa [Context.update, Context.count] using h
  | cons v bs ih =>
    rw [update_cons, List.append_cons]
    exact ih (h.update_singleton v)

/-- Absorbing without counting leaves the same state words: the padding is not counted (R171). -/
theorem Represents.absorbAll_state {bytes : List Byte} {c : Context} (h : Represents bytes c) (bs : List Byte) :
    (c.absorbAll bs).state = hashBlocks (bytes ++ bs) := by
  obtain ⟨hstate, -⟩ := h.update bs
  rw [← hstate, Context.update, count_absorbAll]
  rfl

/-! ### The padding completes the message -/

/-- Both forms of `z` are one remainder (R170). -/
theorem zeroRun_eq_mod (l : Nat) (h : l < 64) : zeroRun l = (119 - l) % 64 := by
  unfold zeroRun
  split <;> omega

/-- The bit length of a byte count taken modulo 2^64 is the bit length of the message modulo 2^64 (R171). -/
theorem bitLength_ofNat (n : Nat) : bitLength (BitVec.ofNat 64 n) = BitVec.ofNat 64 (n * 8) :=
  (BitVec.ofNat_mul ..).symm

/-- The padding computed from the slot's counters is the padding of the message. -/
theorem Represents.append_pad {msg : List Byte} {c : Context} (h : Represents msg c) :
    msg ++ pad c.bufferLength.val c.totalBytes = padMessage msg := by
  obtain ⟨-, hlen, htotal, -⟩ := h
  rw [pad, zeroRun_eq_mod _ c.bufferLength.isLt, hlen, htotal, bitLength_ofNat, padMessage]
  simp only [List.append_assoc]

/-- The digest of a slot is MD5 of the message it stands for (R1, R172). -/
theorem Represents.finalize_eq_md5 {msg : List Byte} {c : Context} (h : Represents msg c) : c.finalize = md5 msg := by
  rw [finalize_eq, h.absorbAll_state, h.append_pad, md5]

/-! ### The two commands that return a digest -/

/-- DIGEST16 on a slot that exists (R175). -/
theorem exec_digest16_of_slot {k : Slot} {s : State} {c : Context} (hc : s.slot? k = some c) :
    exec (.digest16 k) s = .next (respond .ok 0 c.finalize s.ports.region (s.setSlot k Context.reset)) := by
  rw [exec, execDigest16, withSlot_some _ hc]

/-- An accepted DIGEST on a slot that exists (R173). -/
theorem exec_digest_of_ok {k : Slot} {s : State} {c : Context} (hc : s.slot? k = some c)
    (hok : digestStatus s.off s.len s.extent = .ok) :
    exec (.digest k) s = .next (respond .ok 16 zeroData
      (outWriteAll s.ports.region s.off.toNat c.finalize.toList) (s.setSlot k Context.reset)) := by
  rw [exec, execDigest, withSlot_some _ hc, hok]

/-- Settles O50: absorbing the padding on a slot that represents `msg` folds `compress` over the padded message. -/
theorem digestsAreMd5OfTheMessage : Obligations.DigestsAreMd5OfTheMessage := by
  unfold Obligations.DigestsAreMd5OfTheMessage
  intro k s c msg hc hmsg
  refine ⟨⟨_, exec_digest16_of_slot hc, ?_⟩, fun hlen hoff hroom => ?_⟩
  · rw [hmsg.finalize_eq_md5]; rfl
  · have hok : digestStatus s.off s.len s.extent = .ok := (digestStatus_ok_iff ..).2 ⟨hlen, hoff, hroom⟩
    refine ⟨_, _, exec_digest_of_ok hc hok, rfl, rfl, fun i hi => ?_⟩
    rw [← hmsg.finalize_eq_md5]
    have hdigest : c.finalize.toList.length = 16 := finalize_length c
    exact outWriteAll_inside _ _ _ _ (by omega) (by omega)

end Sys2Proof.Machine
end

section
/-! PROOFS. The state (spec/10_state.md): what each command does to each slot, said once as an effect on the slot it
writes, and from it the frame of the commands, the accounts of `totalBytes` and of the state words, the invariants of
R26 and R27, and the byte sequence each slot represents (R25). -/

namespace Sys2Proof.Machine

/-! ### Power-on and the compressor unit -/

/-- Settles O10: power-on is `n` copies of the creation-time record on an idle interface. -/
theorem powerOnHoldsCreationValues : Obligations.PowerOnHoldsCreationValues := by
  unfold Obligations.PowerOnHoldsCreationValues
  exact fun n => ⟨List.length_replicate, fun k hk => List.getElem?_replicate_of_lt hk, rfl, rfl⟩

/-- A tick of the unit that stands before step `j` is step `j` of the loop (R141, R146). -/
theorem tick_of_lt (m : MessageWords) (w : WorkingVars) (j : Nat) (h : j < 64) :
    CompressorRegs.tick { m, w, j } = { m, w := compressStep m w ⟨j, h⟩, j := j + 1 } :=
  dif_pos h

/-- The steps `0 .. j` are the steps `0 .. j - 1` and then step `j`. -/
theorem finRange_take_succ (j : Nat) (h : j < 64) :
    (List.finRange 64).take (j + 1) = (List.finRange 64).take j ++ [⟨j, h⟩] := by
  rw [List.take_succ_eq_append_getElem (by simpa using h), List.getElem_finRange]
  rfl

/-- Settles O17, by induction on the number of steps. -/
theorem unitHoldsTheLoopVariables : Obligations.UnitHoldsTheLoopVariables := by
  unfold Obligations.UnitHoldsTheLoopVariables
  intro st blk j
  induction j with
  | zero => exact fun _ => rfl
  | succ j ih =>
    intro hj
    rw [run_succ, ih (by omega), tick_of_lt _ _ _ hj, finRange_take_succ j hj, List.foldl_append]
    rfl

/-! ### The frame all commands share -/

/-- A next state of a command ends on the slot the command writes. -/
theorem endsOn_of_exec {i : Instr} {s t : State} (h : exec i s = .next t) : EndsOn i.writes s t := by
  obtain ⟨t', ht', hends⟩ := exec_endsOn i s
  cases h.symm.trans ht'
  exact hends

/-- A command keeps the number of slots (R21). -/
theorem EndsOn.nctx {k : Slot} {s t : State} (h : EndsOn k s t) : t.nctx = s.nctx := by
  rcases h.slots with hs | ⟨c, hs⟩
  · rw [State.nctx, hs, State.nctx]
  · rw [State.nctx, hs, List.length_set, State.nctx]

/-- A command keeps every slot but the one it writes (R21). -/
theorem EndsOn.other_slot {k : Slot} {s t : State} (h : EndsOn k s t) {j : Nat} (hj : j ≠ k.toNat) :
    t.slots[j]? = s.slots[j]? := by
  rcases h.slots with hs | ⟨c, hs⟩
  · rw [hs]
  · rw [hs, List.getElem?_set_ne hj.symm]

/-- Settles O37: the shared tail of the commands writes one slot and one response. -/
theorem otherSlotsUnchanged : Obligations.OtherSlotsUnchanged := by
  unfold Obligations.OtherSlotsUnchanged
  intro i s t h
  have hends := endsOn_of_exec h
  exact ⟨hends.nctx, hends.ports, hends.commands, fun _ => hends.other_slot⟩

/-! ### What a command answers and does, said once for all commands -/

end Sys2Proof.Machine

namespace Sys2Proof

open Sys2Proof.Machine

/-- The check a command makes on its operands once its slots exist (R201 to R203). -/
def Instr.check (i : Instr) (s : State) : Status :=
  match i with
  | .update _ => updateStatus s.off s.len s.extent
  | .digest _ => digestStatus s.off s.len s.extent
  | .updateByte _ _ | .digest16 _ | .reset _ | .clone _ _ => .ok

/-- The status a command is answered with: first its slots, then its operands (R76, R200). -/
def Instr.verdict (i : Instr) (s : State) : Status := if i.wf s.nctx then i.check s else .illegalCommand

/-- What an accepted command makes of the record `c` of the slot it writes (R103 to R107, R173, R175). -/
def Instr.effect (i : Instr) (s : State) (c : Context) : Context :=
  match i with
  | .update _ => c.update (sourceBytes s.ports.region s.off.toNat s.len.toNat)
  | .updateByte _ v => c.update [v]
  | .digest _ | .digest16 _ | .reset _ => Context.reset
  | .clone k _ => (s.slot? k).getD c

/-- The response to an accepted command, from the record `c` of the slot it writes (R86). -/
def Instr.answer (i : Instr) (s : State) (c : Context) : Response :=
  match i with
  | .digest _ =>
    { status := .ok, count := 16, data := zeroData
      region := outWriteAll s.ports.region s.off.toNat c.finalize.toList }
  | .digest16 _ => { status := .ok, count := 0, data := c.finalize, region := s.ports.region }
  | .update _ | .updateByte _ _ | .reset _ | .clone _ _ =>
    { status := .ok, count := 0, data := zeroData, region := s.ports.region }

/-- The state an accepted command leaves: its effect on the slot it writes, and its response. -/
def Instr.accepted (i : Instr) (s : State) (c : Context) : State :=
  { s.setSlot i.writes (i.effect s c) with responses := s.responses ++ [i.answer s c] }

end Sys2Proof

namespace Sys2Proof.Machine

/-- A legal slot number names a record. -/
theorem slot_of_legal {s : State} {k : Slot} (h : Slot.legal s.nctx k = true) : ∃ c, s.slot? k = some c :=
  (slot?_eq_some_iff s k).2 (of_decide_eq_true h)

/-- A slot number that is not legal names none. -/
theorem slot_of_not_legal {s : State} {k : Slot} (h : Slot.legal s.nctx k = false) : s.slot? k = none :=
  slot?_eq_none s k (Nat.le_of_not_lt (of_decide_eq_false h))

/-- Both slots of a CLONE are legal when it is well formed (R85). -/
theorem wf_clone_iff (n : Nat) (k d : Slot) :
    (Instr.clone k d).wf n = true ↔ Slot.legal n k = true ∧ Slot.legal n d = true :=
  Bool.and_eq_true_iff

/-- A command on a slot that does not exist is answered with `IllegalCommand` (R76). -/
theorem exec_of_not_wf {i : Instr} {s : State} (h : i.wf s.nctx = false) :
    exec i s = .next (raise .illegalCommand s) := by
  cases i with
  | update k => exact congrArg _ (withSlot_none _ (slot_of_not_legal h))
  | updateByte k v => exact congrArg _ (withSlot_none _ (slot_of_not_legal h))
  | digest k => exact congrArg _ (withSlot_none _ (slot_of_not_legal h))
  | digest16 k => exact congrArg _ (withSlot_none _ (slot_of_not_legal h))
  | reset k => exact congrArg _ (withSlot_none _ (slot_of_not_legal h))
  | clone k d =>
    cases hk : Slot.legal s.nctx k with
    | false => exact congrArg _ (withSlot_none _ (slot_of_not_legal hk))
    | true =>
      obtain ⟨c, hc⟩ := slot_of_legal hk
      have hd : Slot.legal s.nctx d = false := by simpa [Instr.wf, hk] using h
      exact congrArg _ ((withSlot_some _ hc).trans (withSlot_none _ (slot_of_not_legal hd)))

/-- A command whose operands fail their check is answered with that status (R201 to R203, R206). -/
theorem exec_of_check_error {i : Instr} {s : State} (hwf : i.wf s.nctx = true) (h : i.check s ≠ .ok) :
    exec i s = .next (raise (i.check s) s) := by
  cases i with
  | update k =>
    obtain ⟨c, hc⟩ := slot_of_legal hwf
    rw [exec, execUpdate, withSlot_some _ hc]
    split
    · contradiction
    · rfl
  | digest k =>
    obtain ⟨c, hc⟩ := slot_of_legal hwf
    rw [exec, execDigest, withSlot_some _ hc]
    split
    · contradiction
    · rfl
  | updateByte k v => exact absurd rfl h
  | digest16 k => exact absurd rfl h
  | reset k => exact absurd rfl h
  | clone k d => exact absurd rfl h

/-- A command whose slots exist and whose operands pass their check has its effect on the slot it writes. -/
theorem exec_of_check_ok {i : Instr} {s : State} (hwf : i.wf s.nctx = true) (h : i.check s = .ok) :
    ∃ c, s.slot? i.writes = some c ∧ exec i s = .next (i.accepted s c) := by
  cases i with
  | update k =>
    obtain ⟨c, hc⟩ := slot_of_legal hwf
    have hu : updateStatus s.off s.len s.extent = .ok := h
    exact ⟨c, hc, by rw [exec, execUpdate, withSlot_some _ hc, hu]; rfl⟩
  | updateByte k v =>
    obtain ⟨c, hc⟩ := slot_of_legal hwf
    exact ⟨c, hc, congrArg _ (withSlot_some _ hc)⟩
  | digest k =>
    obtain ⟨c, hc⟩ := slot_of_legal hwf
    exact ⟨c, hc, exec_digest_of_ok hc h⟩
  | digest16 k =>
    obtain ⟨c, hc⟩ := slot_of_legal hwf
    exact ⟨c, hc, exec_digest16_of_slot hc⟩
  | reset k =>
    obtain ⟨c, hc⟩ := slot_of_legal hwf
    exact ⟨c, hc, congrArg _ (withSlot_some _ hc)⟩
  | clone k d =>
    obtain ⟨hk, hd⟩ := (wf_clone_iff ..).1 hwf
    obtain ⟨c, hc⟩ := slot_of_legal hk
    obtain ⟨c', hc'⟩ := slot_of_legal hd
    have heffect : (Instr.clone k d).effect s c' = c := by rw [Instr.effect, hc, Option.getD_some]
    refine ⟨c', hc', ?_⟩
    rw [exec, execClone, withSlot_some _ hc, withSlot_some _ hc', Instr.accepted, heffect]
    by_cases hdk : d = k
    · subst hdk
      rw [if_neg (not_not_intro rfl), Instr.writes, setSlot_self hc]
      rfl
    · rw [if_pos hdk]
      rfl

theorem verdict_of_wf {i : Instr} {s : State} (h : i.wf s.nctx = true) : i.verdict s = i.check s := if_pos h

theorem verdict_of_not_wf {i : Instr} {s : State} (h : i.wf s.nctx = false) : i.verdict s = .illegalCommand :=
  if_neg (Bool.not_eq_true _ ▸ h)

/-- A command is accepted when its slots exist and its operands pass their check. -/
theorem verdict_ok_iff (i : Instr) (s : State) : i.verdict s = .ok ↔ i.wf s.nctx = true ∧ i.check s = .ok := by
  cases h : i.wf s.nctx with
  | true => simp [verdict_of_wf h]
  | false => simp [verdict_of_not_wf h]

/-- An accepted command has its effect on the slot it writes. -/
theorem exec_of_verdict_ok {i : Instr} {s : State} (h : i.verdict s = .ok) :
    ∃ c, s.slot? i.writes = some c ∧ exec i s = .next (i.accepted s c) := by
  obtain ⟨hwf, hok⟩ := (verdict_ok_iff ..).1 h
  exact exec_of_check_ok hwf hok

/-- A command that is not accepted leaves its response and nothing else (R206). -/
theorem exec_of_verdict_error {i : Instr} {s : State} (h : i.verdict s ≠ .ok) :
    exec i s = .next (raise (i.verdict s) s) := by
  cases hwf : i.wf s.nctx with
  | true =>
    rw [verdict_of_wf hwf] at h ⊢
    exact exec_of_check_error hwf h
  | false =>
    rw [verdict_of_not_wf hwf]
    exact exec_of_not_wf hwf

/-- Every next state of a command is the one or the other. -/
theorem exec_next_cases {i : Instr} {s t : State} (h : exec i s = .next t) :
    (i.verdict s ≠ .ok ∧ t = raise (i.verdict s) s) ∨
    (i.verdict s = .ok ∧ ∃ c, s.slot? i.writes = some c ∧ t = i.accepted s c) := by
  by_cases hv : i.verdict s = .ok
  · obtain ⟨c, hc, he⟩ := exec_of_verdict_ok hv
    cases h.symm.trans he
    exact .inr ⟨hv, c, hc, rfl⟩
  · cases h.symm.trans (exec_of_verdict_error hv)
    exact .inl ⟨hv, rfl⟩

/-- The status of an accepted command's response is OK. -/
theorem answer_status (i : Instr) (s : State) (c : Context) : (i.answer s c).status = .ok := by
  cases i <;> rfl

/-- The status of the response is the verdict. -/
theorem exec_status {i : Instr} {s t : State} {r : Response} (h : exec i s = .next t)
    (hr : t.responses = s.responses ++ [r]) : r.status = i.verdict s := by
  rcases exec_next_cases h with ⟨-, rfl⟩ | ⟨hv, c, -, rfl⟩
  · cases List.append_cancel_left hr
    rfl
  · cases List.append_cancel_left hr
    rw [answer_status, hv]

/-- The record of every slot after a command: the effect on the slot an accepted command writes, and the record it held
in every other case. -/
theorem exec_slot {i : Instr} {s t : State} (h : exec i s = .next t) {j : Nat} {c' : Context}
    (hj : t.slots[j]? = some c') :
    ∃ c, s.slots[j]? = some c ∧ c' = if j = i.writes.toNat ∧ i.verdict s = .ok then i.effect s c else c := by
  rcases exec_next_cases h with ⟨hv, rfl⟩ | ⟨hv, c, hc, rfl⟩
  · exact ⟨c', hj, (if_neg fun hand => hv hand.2).symm⟩
  · by_cases hw : j = i.writes.toNat
    · subst hw
      refine ⟨c, hc, ?_⟩
      rw [if_pos ⟨rfl, hv⟩]
      have hself : (s.setSlot i.writes (i.effect s c)).slot? i.writes = some (i.effect s c) :=
        slot?_setSlot_self _ _ _ ((slot?_eq_some_iff s _).1 ⟨c, hc⟩)
      exact Option.some.inj (hj.symm.trans hself)
    · refine ⟨c', ?_, (if_neg fun hand => hw hand.1).symm⟩
      rw [← hj]
      exact (List.getElem?_set_ne (Ne.symm hw)).symm

/-! ### No command reads a response -/

/-- Settles O44: neither the verdict nor the effect nor the answer of a command depends on the responses. -/
theorem responsesAreNotRead : Obligations.ResponsesAreNotRead := by
  unfold Obligations.ResponsesAreNotRead
  intro i s t past h
  have hverdict : i.verdict { s with responses := past } = i.verdict s := rfl
  have hanswer (c : Context) : i.answer { s with responses := past } c = i.answer s c := rfl
  have heffect (c : Context) : i.effect { s with responses := past } c = i.effect s c := rfl
  rcases exec_next_cases h with ⟨hv, rfl⟩ | ⟨hv, c, hc, rfl⟩
  · exact ⟨_, rfl, exec_of_verdict_error (hverdict.trans_ne hv)⟩
  · obtain ⟨c', hc', he⟩ := exec_of_verdict_ok (hverdict.trans hv)
    cases hc.symm.trans hc'
    refine ⟨i.answer s c, rfl, he.trans ?_⟩
    rw [Instr.accepted, hanswer, heffect]
    rfl

/-! ### Absorbing any bytes into any record -/

/-- The bytes of the buffer not yet compressed (R23). -/
def Context.pending (c : Context) : List Byte := c.buf.toList.take c.bufferLength.val

theorem pending_length (c : Context) : c.pending.length = c.bufferLength.val := by
  rw [Context.pending, List.length_take, Vector.length_toList]
  exact Nat.min_eq_left c.bufferLength.isLt.le

/-- A stored byte is pending after those before it. -/
theorem take_succ_toList_set (buf : Block) (n : Nat) (v : Byte) (h : n < 64) :
    (buf.set n v).toList.take (n + 1) = buf.toList.take n ++ [v] := by
  rw [Vector.toList_set, List.take_succ_eq_append_getElem (by simpa using h), List.getElem_set_self,
    List.take_set_of_le (Nat.le_refl n)]

/-- Below a full block the absorbed byte becomes pending (R100). -/
theorem pending_absorb_of_lt (c : Context) (v : Byte) (h : c.bufferLength.val + 1 < 64) :
    (c.absorb v).pending = c.pending ++ [v] := by
  rw [absorb_of_lt c v h]
  exact take_succ_toList_set _ _ _ (by omega)

/-- After a compression nothing is pending (R102). -/
theorem pending_absorb_of_full (c : Context) (v : Byte) (h : c.bufferLength.val + 1 = 64) :
    (c.absorb v).pending = [] := by
  rw [absorb_of_full c v h]
  rfl

/-- The block that is compressed is the pending bytes and the byte that fills it (R100). -/
theorem set_eq_blockAt (c : Context) (v : Byte) (h : c.bufferLength.val + 1 = 64) :
    c.buf.set c.bufferLength.val v = blockAt (c.pending ++ [v]) 0 := by
  have hlist : (c.buf.set c.bufferLength.val v).toList = c.pending ++ [v] := by
    rw [Context.pending, ← take_succ_toList_set _ _ _ c.bufferLength.isLt, h, List.take_of_length_le (by simp)]
  ext j hj : 1
  rw [blockAt_getElem _ _ _ hj, ← hlist, List.getD_eq_getElem _ _ (by simpa using hj)]
  simp

/-- Fewer than 64 bytes hold no full block. -/
theorem fullBlocks_of_lt (bytes : List Byte) (h : bytes.length < 64) : fullBlocks bytes = [] := by
  rw [fullBlocks, Nat.div_eq_of_lt h]
  rfl

/-- The full blocks of 64 bytes followed by others are those 64 bytes and the full blocks of the others. -/
theorem fullBlocks_append_of_length (xs bs : List Byte) (h : xs.length = 64) :
    fullBlocks (xs ++ bs) = blockAt xs 0 :: fullBlocks bs := by
  have hdiv : (xs ++ bs).length / 64 = bs.length / 64 + 1 := by
    rw [List.length_append]
    omega
  have hfirst : blockAt (xs ++ bs) 0 = blockAt xs 0 := blockAt_append_of_full xs bs 0 (by omega)
  have hrest (n : Nat) : blockAt (xs ++ bs) (n + 1) = blockAt bs n := by
    ext j hj : 1
    rw [blockAt_getElem _ _ _ hj, blockAt_getElem _ _ _ hj, List.getD_append_right _ _ _ _ (by omega)]
    congr 1
    omega
  rw [fullBlocks, hdiv, List.range_succ_eq_map, List.map_cons, hfirst, List.map_map]
  exact congrArg _ (List.map_congr_left fun n _ => hrest n)

/-- The state words after absorbing are the fold of `compress` over the full blocks of the pending bytes followed by the
absorbed ones (R22, R147). -/
theorem absorbAll_state_eq_foldl (c : Context) (bs : List Byte) :
    (c.absorbAll bs).state = (fullBlocks (c.pending ++ bs)).foldl compress c.state := by
  induction bs generalizing c with
  | nil =>
    rw [List.append_nil, fullBlocks_of_lt _ (by rw [pending_length]; exact c.bufferLength.isLt)]
    rfl
  | cons v bs ih =>
    rw [absorbAll_cons, ih, List.append_cons]
    rcases bufferLength_cases c with h | h
    · rw [pending_absorb_of_lt c v h, absorb_of_lt c v h]
    · have hlen : (c.pending ++ [v]).length = 64 := by
        rw [List.length_append, pending_length]
        exact h
      rw [pending_absorb_of_full c v h, absorb_of_full c v h, fullBlocks_append_of_length _ _ hlen, List.foldl_cons,
        set_eq_blockAt c v h]
      rfl

/-- `bufferLength` grows by the number of absorbed bytes, modulo 64 (R101). -/
theorem absorbAll_bufferLength_eq_mod (c : Context) (bs : List Byte) :
    (c.absorbAll bs).bufferLength.val = (c.bufferLength.val + bs.length) % 64 := by
  induction bs generalizing c with
  | nil => exact (Nat.mod_eq_of_lt c.bufferLength.isLt).symm
  | cons v bs ih =>
    rw [absorbAll_cons, ih, absorb_bufferLength, List.length_cons]
    omega

/-- The buffer bytes at or above `bufferLength` stay zero over any absorbed bytes (R27). -/
theorem absorbAll_tail (c : Context) (bs : List Byte) (h : ∀ i : Fin 64, c.bufferLength ≤ i → c.buf[i.val] = 0) :
    ∀ i : Fin 64, (c.absorbAll bs).bufferLength ≤ i → (c.absorbAll bs).buf[i.val] = 0 := by
  induction bs generalizing c with
  | nil => exact h
  | cons v bs ih => exact ih _ (absorb_tail c v h)

@[simp] theorem update_totalBytes (c : Context) (bs : List Byte) :
    (c.update bs).totalBytes = c.totalBytes + BitVec.ofNat 64 bs.length :=
  absorbAll_totalBytes ..

/-- Counting leaves the pending bytes, so an UPDATE folds `compress` as absorbing does. -/
theorem update_state (c : Context) (bs : List Byte) :
    (c.update bs).state = (fullBlocks (c.pending ++ bs)).foldl compress c.state :=
  absorbAll_state_eq_foldl ..

/-! ### Accounts of `totalBytes` and of the state words -/

section Accounts

variable {i : Instr} {s t : State} {r : Response} {j : Nat} {c c' : Context}

/-- Where a command does not write the slot, or fails, the slot keeps its record (R206). -/
theorem slot_unchanged (h : exec i s = .next t) (hr : t.responses = s.responses ++ [r]) (hc : s.slots[j]? = some c)
    (hc' : t.slots[j]? = some c') (hj : j ≠ i.writes.toNat ∨ r.status ≠ .ok) : c' = c := by
  obtain ⟨c₀, hc₀, rfl⟩ := exec_slot h hc'
  cases hc.symm.trans hc₀
  rw [exec_status h hr] at hj
  exact if_neg (by tauto)

/-- Where a command succeeds, the slot it writes holds its effect, and its operands passed their check. -/
theorem slot_written (h : exec i s = .next t) (hr : t.responses = s.responses ++ [r]) (hc : s.slots[j]? = some c)
    (hc' : t.slots[j]? = some c') (hj : j = i.writes.toNat ∧ r.status = .ok) :
    i.check s = .ok ∧ c' = i.effect s c := by
  obtain ⟨c₀, hc₀, rfl⟩ := exec_slot h hc'
  cases hc.symm.trans hc₀
  rw [exec_status h hr] at hj
  exact ⟨((verdict_ok_iff ..).1 hj.2).2, if_pos hj⟩

end Accounts

/-- The bytes an accepted UPDATE absorbs are `len` in number (R103). -/
theorem sourceBytes_length_of_ok {s : State} (h : updateStatus s.off s.len s.extent = .ok) :
    (sourceBytes s.ports.region s.off.toNat s.len.toNat).length = s.len.toNat := by
  obtain ⟨hoff, hlen, hroom⟩ := (updateStatus_ok_iff ..).1 h
  rw [State.extent] at hroom
  exact sourceBytes_length _ _ _ (by omega)

/-- The record a CLONE writes is that of its source (R107). -/
theorem effect_clone {s : State} {k d : Slot} {src : Context} (h : s.slot? k = some src) (c : Context) :
    (Instr.clone k d).effect s c = src := by
  rw [Instr.effect, h, Option.getD_some]

/-- Settles O41: each command's effect on `totalBytes`; absorbing a padding counts nothing. -/
theorem totalBytesAccounting : Obligations.TotalBytesAccounting := by
  unfold Obligations.TotalBytesAccounting
  refine ⟨fun i s t r j c c' h hr hc hc' => ⟨fun hj => ?_, fun hj => ?_⟩, fun c => absorbAll_totalBytes ..⟩
  · rw [slot_unchanged h hr hc hc' hj]
  · obtain ⟨hok, rfl⟩ := slot_written h hr hc hc' hj
    cases i with
    | update k =>
      change (c.update _).totalBytes = _
      rw [update_totalBytes, sourceBytes_length_of_ok hok]
    | updateByte k v => exact update_totalBytes c [v]
    | digest k => rfl
    | digest16 k => rfl
    | reset k => rfl
    | clone k d => exact fun src hsrc => by rw [effect_clone hsrc]

/-- Settles O42: each command's effect on the state words, which absorbing changes by compressing full blocks. -/
theorem stateWordsChangeOnlyByCompression : Obligations.StateWordsChangeOnlyByCompression := by
  unfold Obligations.StateWordsChangeOnlyByCompression
  refine fun i s t r j c c' h hr hc hc' => ⟨fun hj => ?_, fun hj => ?_⟩
  · rw [slot_unchanged h hr hc hc' hj]
  · obtain ⟨-, rfl⟩ := slot_written h hr hc hc' hj
    cases i with
    | update k => exact update_state c _
    | updateByte k v => exact update_state c [v]
    | digest k => rfl
    | digest16 k => rfl
    | reset k => rfl
    | clone k d => exact fun src hsrc => by rw [effect_clone hsrc]

/-! ### Stale buffer bytes -/

/-- Records that agree on every buffer byte below `bufferLength` have the same pending bytes. -/
theorem pending_congr {c c' : Context} (hlen : c.bufferLength = c'.bufferLength)
    (h : ∀ i : Fin 64, i < c.bufferLength → c.buf[i.val] = c'.buf[i.val]) : c.pending = c'.pending := by
  apply List.ext_getElem
  · rw [pending_length, pending_length, hlen]
  · intro n hn _
    rw [pending_length] at hn
    have hbyte := h ⟨n, by omega⟩ hn
    simpa [Context.pending] using hbyte

/-- Settles O47: the digest is a function of the state words, the counters and the pending bytes. -/
theorem staleBytesAreUnobservable : Obligations.StaleBytesAreUnobservable := by
  unfold Obligations.StaleBytesAreUnobservable
  intro c c' bs hstate hlen htotal hbuf
  have hL : (c.absorbAll bs).bufferLength = (c'.absorbAll bs).bufferLength :=
    Fin.ext (by rw [absorbAll_bufferLength_eq_mod, absorbAll_bufferLength_eq_mod, hlen])
  rw [finalize_eq, finalize_eq, ← absorbAll_append, ← absorbAll_append, hL, absorbAll_totalBytes,
    absorbAll_totalBytes, htotal, absorbAll_state_eq_foldl, absorbAll_state_eq_foldl, hstate, pending_congr hlen hbuf]

/-! ### The history of every slot -/

/-- The creation-time record stands for the empty byte sequence (R25, R33). -/
theorem represents_reset : Represents [] Context.reset :=
  ⟨rfl, rfl, rfl, fun _ => Vector.getElem_replicate _⟩

/-- The history of a slot the command does not write, or fails to, is as before. -/
theorem historyAfter_of_unwritten {i : Instr} {s : State} {history : Nat → List Byte} {j : Nat}
    (hex : j < s.nctx) (h : ¬ (j = i.writes.toNat ∧ i.verdict s = .ok)) : historyAfter i s history j = history j := by
  rw [verdict_ok_iff] at h
  have hlegal (k : Slot) (hj : j = k.toNat) : Slot.legal s.nctx k = true := decide_eq_true (hj ▸ hex)
  cases i with
  | update k => exact if_neg fun hand => h ⟨hand.1, hlegal k hand.1, hand.2⟩
  | updateByte k v => exact if_neg fun hj => h ⟨hj, hlegal k hj, rfl⟩
  | digest k => exact if_neg fun hand => h ⟨hand.1, hlegal k hand.1, hand.2⟩
  | digest16 k => exact if_neg fun hj => h ⟨hj, hlegal k hj, rfl⟩
  | reset k => exact if_neg fun hj => h ⟨hj, hlegal k hj, rfl⟩
  | clone k d =>
    exact if_neg fun hand => h ⟨hand.1, (wf_clone_iff ..).2 ⟨decide_eq_true hand.2, hlegal d hand.1⟩, rfl⟩

/-- The effect of an accepted command stands for the history after it. -/
theorem represents_effect {i : Instr} {s : State} {history : Nat → List Byte} {c : Context}
    (hall : ∀ j c, s.slots[j]? = some c → Represents (history j) c) (hc : s.slot? i.writes = some c)
    (hv : i.verdict s = .ok) : Represents (historyAfter i s history i.writes.toNat) (i.effect s c) := by
  obtain ⟨hwf, hok⟩ := (verdict_ok_iff ..).1 hv
  have hold := hall _ _ hc
  cases i with
  | update k =>
    rw [historyAfter, if_pos ⟨rfl, hok⟩]
    exact hold.update _
  | updateByte k v =>
    rw [Instr.writes, historyAfter, if_pos rfl]
    exact hold.update _
  | digest k =>
    rw [historyAfter, if_pos ⟨rfl, hok⟩]
    exact represents_reset
  | digest16 k =>
    rw [Instr.writes, historyAfter, if_pos rfl]
    exact represents_reset
  | reset k =>
    rw [Instr.writes, historyAfter, if_pos rfl]
    exact represents_reset
  | clone k d =>
    obtain ⟨hk, -⟩ := (wf_clone_iff ..).1 hwf
    obtain ⟨src, hsrc⟩ := slot_of_legal hk
    rw [historyAfter, if_pos ⟨rfl, of_decide_eq_true hk⟩, effect_clone hsrc]
    exact hall _ _ hsrc

/-- Settles O49: the slot an accepted command writes represents the history after it, and every other slot keeps its
record and its history. -/
theorem slotsRepresentTheirHistories : Obligations.SlotsRepresentTheirHistories := by
  unfold Obligations.SlotsRepresentTheirHistories
  intro i s t history hall h j c' hc'
  obtain ⟨c, hc, rfl⟩ := exec_slot h hc'
  split
  · next hand =>
    obtain ⟨rfl, hv⟩ := hand
    exact represents_effect hall hc hv
  · next hnot =>
    rw [historyAfter_of_unwritten (List.getElem?_eq_some_iff.1 hc).1 hnot]
    exact hall _ _ hc

/-! ### The invariant of the machine -/

/-- The creation-time record meets the slot invariants (R26, R27, R33). -/
theorem reset_inv : Context.reset.inv := ⟨rfl, fun _ _ => Vector.getElem_replicate _⟩

/-- An UPDATE keeps the slot invariants: the counters grow by the same number, and 64 divides 2^64 (R26, R27). -/
theorem update_inv {c : Context} (h : c.inv) (bs : List Byte) : (c.update bs).inv := by
  obtain ⟨hlen, htail⟩ := h
  refine ⟨?_, absorbAll_tail (c.count bs.length) bs htail⟩
  rw [update_totalBytes, Context.update, absorbAll_bufferLength_eq_mod, count_bufferLength, hlen, BitVec.toNat_add,
    BitVec.toNat_ofNat]
  omega

/-- Every command's effect keeps the slot invariants, where all slots of the state meet them. -/
theorem effect_inv {i : Instr} {s : State} {c : Context} (hall : ∀ c ∈ s.slots, c.inv) (hc : c.inv) :
    (i.effect s c).inv := by
  cases i with
  | update k => exact update_inv hc _
  | updateByte k v => exact update_inv hc _
  | digest k => exact reset_inv
  | digest16 k => exact reset_inv
  | reset k => exact reset_inv
  | clone k d =>
    cases hsrc : s.slot? k with
    | none => rw [Instr.effect, hsrc]; exact hc
    | some src => rw [effect_clone hsrc]; exact hall _ (List.mem_of_getElem? hsrc)

/-- A command keeps the slot invariants (R26, R27). -/
theorem exec_slots_inv {i : Instr} {s t : State} (h : exec i s = .next t) (hall : ∀ c ∈ s.slots, c.inv) :
    ∀ c ∈ t.slots, c.inv := by
  intro c' hmem
  obtain ⟨j, hj⟩ := List.mem_iff_getElem?.1 hmem
  obtain ⟨c, hc, rfl⟩ := exec_slot h hj
  have hinv := hall c (List.mem_of_getElem? hc)
  split
  · exact effect_inv hall hinv
  · exact hinv

/-- The region of a response has the extent of the REGION port (R86). -/
theorem answer_region_length (i : Instr) (s : State) (c : Context) :
    (i.answer s c).region.length = s.ports.region.length := by
  cases i with
  | digest k => exact outWriteAll_length ..
  | _ => rfl

/-- A command keeps every region of a response within `MAX_EXTENT` (R81). -/
theorem exec_responses_wf {i : Instr} {s t : State} (h : exec i s = .next t) (hport : Memory.wf s.ports.region = true)
    (hall : ∀ r ∈ s.responses, Memory.wf r.region = true) : ∀ r ∈ t.responses, Memory.wf r.region = true := by
  rcases exec_next_cases h with ⟨-, rfl⟩ | ⟨-, c, -, rfl⟩
  · exact List.forall_mem_append.2 ⟨hall, List.forall_mem_singleton.2 hport⟩
  · refine List.forall_mem_append.2 ⟨hall, List.forall_mem_singleton.2 ?_⟩
    rw [Memory.wf, answer_region_length]
    exact hport

/-- Every command keeps the invariant of the machine. -/
theorem exec_inv {i : Instr} {s t : State} (h : exec i s = .next t) (hs : s.inv) : t.inv := by
  obtain ⟨hnctx, hslots, hport, hcommands, hresponses⟩ := hs
  have hends := endsOn_of_exec h
  refine ⟨?_, exec_slots_inv h hslots, ?_, ?_, exec_responses_wf h hport hresponses⟩
  · rwa [hends.nctx]
  · rwa [hends.ports]
  · rwa [hends.commands]

/-- Taking the oldest command of the stream keeps the invariant: its region is one of the stream's. -/
theorem accept_inv {s : State} {c : Command} {rest : List Command} (hs : s.inv) (hcmd : s.commands = c :: rest) :
    (accept c rest s).inv := by
  obtain ⟨hnctx, hslots, -, hcommands, hresponses⟩ := hs
  rw [hcmd] at hcommands
  obtain ⟨hfirst, hrest⟩ := List.forall_mem_cons.1 hcommands
  exact ⟨hnctx, hslots, hfirst, hrest, hresponses⟩

/-- An answer with an error keeps the invariant. -/
theorem raise_inv {s : State} (e : Status) (hs : s.inv) : (raise e s).inv := by
  obtain ⟨hnctx, hslots, hport, hcommands, hresponses⟩ := hs
  exact ⟨hnctx, hslots, hport, hcommands, List.forall_mem_append.2 ⟨hresponses, List.forall_mem_singleton.2 hport⟩⟩

/-- Settles O48: a step is idle, or takes a command and then runs it or answers that it does not decode; each keeps the
invariant and the number of slots. -/
theorem invariantIsKeptByEveryStep : Obligations.InvariantIsKeptByEveryStep := by
  unfold Obligations.InvariantIsKeptByEveryStep
  intro s t hs h
  rcases step_cases s with ⟨-, hidle⟩ | ⟨c, rest, i, hcmd, -, hexec⟩ | ⟨c, rest, e, hcmd, -, hraise⟩
  · cases h.symm.trans hidle
    exact ⟨hs, rfl⟩
  · have hrun := hexec.symm.trans h
    exact ⟨exec_inv hrun (accept_inv hs hcmd), (endsOn_of_exec hrun).nctx⟩
  · cases h.symm.trans hraise
    exact ⟨raise_inv _ (accept_inv hs hcmd), rfl⟩

end Sys2Proof.Machine
end

section
/-! PROOFS. The order of commands and the host's regions (spec/20_memory.md): what a command reads, said once as the
part of the state its outcome depends on, and from it the freedom to reorder commands on different slots (R61); the frame of
the REGION' of every response (R53, R86); and the window of its region an UPDATE reads (R52). -/

namespace Sys2Proof.Machine

/-! ### What a command's outcome depends on -/

/-- The two states look the same to command `i`: they have the same operands on the ports, as many slots, and the same
records in the slots the command is on (R61, R80). -/
structure LooksSame (i : Instr) (s s' : State) : Prop where
  ports : s'.ports = s.ports
  nctx : s'.nctx = s.nctx
  slots : ∀ k ∈ i.touches, s'.slot? k = s.slot? k

/-- `s` after a command that makes `f` of the record in slot `k` and answers `r`. -/
def State.ended (s : State) (k : Slot) (f : Context → Context) (r : Response) : State :=
  { s with slots := s.slots.modify k.toNat f, responses := s.responses ++ [r] }

/-- An error leaves every record as it was. -/
theorem raise_eq_ended (e : Status) (s : State) (k : Slot) :
    raise e s = s.ended k id { status := e, count := 0, data := zeroData, region := s.ports.region } := by
  rw [State.ended, List.modify_id]
  rfl

/-- An accepted command makes its effect of the record in the slot it writes. -/
theorem accepted_eq_ended {i : Instr} {s : State} {c : Context} (h : s.slot? i.writes = some c) :
    i.accepted s c = s.ended i.writes (i.effect s) (i.answer s c) := by
  have hset : s.slots.modify i.writes.toNat (i.effect s) = s.slots.set i.writes.toNat (i.effect s c) := by
    rw [State.slot?] at h
    rw [List.modify_eq_set_getElem?, h]
    rfl
  rw [State.ended, hset]
  rfl

/-- A command writes a slot it is on (R61, R72). -/
theorem writes_mem_touches (i : Instr) : i.writes ∈ i.touches := by
  cases i <;> simp [Instr.writes, Instr.touches]

section LooksSame

variable {i : Instr} {s s' : State}

/-- The verdict depends on the ports and the number of slots. -/
theorem LooksSame.verdict (h : LooksSame i s s') : i.verdict s' = i.verdict s := by
  have hcheck : i.check s' = i.check s := by
    cases i <;> simp only [Instr.check, State.off, State.len, State.extent, h.ports]
  rw [Instr.verdict, hcheck, h.nctx, Instr.verdict]

/-- The effect depends on the ports and, for CLONE, on the source. -/
theorem LooksSame.effect (h : LooksSame i s s') : i.effect s' = i.effect s := by
  funext c
  cases i with
  | update k => simp only [Instr.effect, State.off, State.len, h.ports]
  | clone k d => rw [Instr.effect, h.slots k List.mem_cons_self, Instr.effect]
  | _ => rfl

/-- The answer depends on the ports. -/
theorem LooksSame.answer (h : LooksSame i s s') (c : Context) : i.answer s' c = i.answer s c := by
  cases i <;> simp only [Instr.answer, State.off, h.ports]

end LooksSame

/-- On every state that looks the same as `s` to command `i`, the command makes `f` of the record in the slot it writes
and answers `r`. -/
def Does (i : Instr) (s : State) (f : Context → Context) (r : Response) : Prop :=
  ∀ s', LooksSame i s s' → exec i s' = .next (s'.ended i.writes f r)

/-- What a command does and answers is one thing for all states that look the same to it. -/
theorem exists_does (i : Instr) (s : State) : ∃ f r, Does i s f r := by
  by_cases hv : i.verdict s = .ok
  · obtain ⟨c, hc, -⟩ := exec_of_verdict_ok hv
    refine ⟨i.effect s, i.answer s c, fun s' h => ?_⟩
    obtain ⟨c', hc', he⟩ := exec_of_verdict_ok (h.verdict.trans hv)
    cases hc'.symm.trans ((h.slots _ (writes_mem_touches i)).trans hc)
    rw [he, accepted_eq_ended hc', h.effect, h.answer]
  · refine ⟨id, ⟨i.verdict s, 0, zeroData, s.ports.region⟩, fun s' h => ?_⟩
    rw [exec_of_verdict_error (h.verdict.trans_ne hv), raise_eq_ended _ _ i.writes, h.verdict, h.ports]

/-! ### Commands on different slots -/

/-- A step on a word that decodes runs the command it decodes to (R76). -/
theorem step_of_decode {s : State} {c : Command} {rest : List Command} {i : Instr} (hcmd : s.commands = c :: rest)
    (hdec : decode s.nctx c.word = .ok i) : step s = exec i (accept c rest s) := by
  simp only [step, hcmd, hdec]

/-- What another command leaves in the slots it does not write is what a command on those slots finds there. -/
theorem looksSame_ended {i : Instr} {s s' : State} {k : Slot} (h : LooksSame i s s') (hk : k ∉ i.touches)
    (f : Context → Context) (r : Response) : LooksSame i s (s'.ended k f r) where
  ports := h.ports
  nctx := (List.length_modify ..).trans h.nctx
  slots j hj := by
    have hne : k.toNat ≠ j.toNat := fun e => hk (BitVec.eq_of_toNat_eq e ▸ hj)
    rw [← h.slots j hj]
    exact List.getElem?_modify_ne _ _ hne

/-- Two steps on the words of two commands, where the first writes no slot the second is on: each does what it does with
its operands on the ports of the first state (R57, R61). -/
theorem run_two_of_does {s : State} {c c' : Command} {rest : List Command} {i i' : Instr} {f f' : Context → Context}
    {r r' : Response} (hcmd : s.commands = c :: c' :: rest) (hdec : decode s.nctx c.word = .ok i)
    (hdec' : decode s.nctx c'.word = .ok i') (hdisj : i.writes ∉ i'.touches) (hdo : Does i (accept c rest s) f r)
    (hdo' : Does i' (accept c' rest s) f' r') :
    run 2 s = .next ((accept c' rest ((accept c (c' :: rest) s).ended i.writes f r)).ended i'.writes f' r') := by
  have hfirst : step s = .next ((accept c (c' :: rest) s).ended i.writes f r) :=
    (step_of_decode hcmd hdec).trans (hdo _ ⟨rfl, rfl, fun _ _ => rfl⟩)
  have hnctx : ((accept c (c' :: rest) s).ended i.writes f r).nctx = s.nctx := List.length_modify ..
  have hsecond := (step_of_decode (s := (accept c (c' :: rest) s).ended i.writes f r) rfl (hnctx ▸ hdec')).trans
    (hdo' _ (looksSame_ended ⟨rfl, rfl, fun _ _ => rfl⟩ hdisj f r))
  rw [run_of_step 1 _ _ hfirst, run_of_step 0 _ _ hsecond, run_zero]

/-- Settles O54: in either order each command makes the same change of the slot it writes and gives the same answer, and
changes of different slots commute. -/
theorem commandsOnDistinctSlotsCommute : Obligations.CommandsOnDistinctSlotsCommute := by
  unfold Obligations.CommandsOnDistinctSlotsCommute
  intro s c c' rest i i' hcmd hdec hdec' hdisj
  have hw : i.writes ∉ i'.touches := hdisj _ (writes_mem_touches i)
  have hw' : i'.writes ∉ i.touches := fun hmem => hdisj _ hmem (writes_mem_touches i')
  have hne : i.writes.toNat ≠ i'.writes.toNat :=
    fun e => hw (BitVec.eq_of_toNat_eq e ▸ writes_mem_touches i')
  obtain ⟨f, r, hdo⟩ := exists_does i (accept c rest s)
  obtain ⟨f', r', hdo'⟩ := exists_does i' (accept c' rest s)
  refine ⟨_, _, r, r', run_two_of_does hcmd hdec hdec' hw hdo hdo', run_two_of_does rfl hdec' hdec hw' hdo' hdo,
    List.modify_modify_ne f f' s.slots hne, List.append_assoc .., List.append_assoc ..⟩

/-! ### The frame on the host's region -/

/-- A command other than DIGEST returns the region as it came (R86). -/
theorem answer_region_of_ne_digest {i : Instr} (h : ∀ k, i ≠ .digest k) (s : State) (c : Context) :
    (i.answer s c).region = s.ports.region := by
  cases i with
  | digest k => exact absurd rfl (h k)
  | _ => rfl

/-- No command writes a byte outside `off .. off + 15` (R53, R173). -/
theorem answer_region_outside (i : Instr) (s : State) (c : Context) {a : Nat}
    (h : a < s.off.toNat ∨ s.off.toNat + 16 ≤ a) : (i.answer s c).region[a]? = s.ports.region[a]? := by
  cases i with
  | digest k => exact outWriteAll_outside _ _ _ _ (by rwa [finalize_length])
  | _ => rfl

/-- Settles O38: an error returns the region as it came, and an accepted command the region of its answer. -/
theorem regionFrame : Obligations.RegionFrame := by
  unfold Obligations.RegionFrame
  intro i s t r h hr
  rcases exec_next_cases h with ⟨-, rfl⟩ | ⟨-, c, -, rfl⟩
  · cases List.append_cancel_left hr
    exact ⟨fun _ => rfl, rfl, fun _ _ => rfl, fun _ => rfl⟩
  · cases List.append_cancel_left hr
    exact ⟨fun hne => answer_region_of_ne_digest hne s c, answer_region_length i s c,
      fun _ => answer_region_outside i s c, fun herr => absurd (answer_status i s c) herr⟩

/-! ### The window UPDATE reads -/

/-- `s` with another region on its port. -/
def State.withRegion (s : State) (region : Region) : State := { s with ports := { s.ports with region := region } }

/-- Regions of one extent give every command the same verdict. -/
theorem verdict_withRegion (i : Instr) {s : State} {region : Region} (h : region.length = s.ports.region.length) :
    i.verdict (s.withRegion region) = i.verdict s := by
  have hcheck : i.check (s.withRegion region) = i.check s := by
    cases i with
    | update k => exact congrArg (updateStatus s.off s.len) h
    | digest k => exact congrArg (digestStatus s.off s.len) h
    | _ => rfl
  rw [Instr.verdict, hcheck]
  rfl

/-- Regions that agree on the window `off .. off + len - 1` give an UPDATE the same effect (R52). -/
theorem effect_update_withRegion (k : Slot) {s : State} {region : Region}
    (h : ∀ a : Nat, s.off.toNat ≤ a → a < s.off.toNat + s.len.toNat → region[a]? = s.ports.region[a]?) :
    (Instr.update k).effect (s.withRegion region) = (Instr.update k).effect s :=
  funext fun c => congrArg c.update (sourceBytes_congr region s.ports.region s.off.toNat s.len.toNat h)

/-- Settles O46: the verdict reads the extent alone, and the effect of an accepted UPDATE the window alone. -/
theorem updateReadsOnlyItsWindow : Obligations.UpdateReadsOnlyItsWindow := by
  unfold Obligations.UpdateReadsOnlyItsWindow
  intro k s t region hextent hagree h
  have hverdict := verdict_withRegion (.update k) hextent
  rcases exec_next_cases h with ⟨hv, rfl⟩ | ⟨hv, c, hc, rfl⟩
  · have hexec : exec (.update k) (s.withRegion region) =
        .next (raise ((Instr.update k).verdict s) (s.withRegion region)) := by
      rw [exec_of_verdict_error (hverdict.trans_ne hv), hverdict]
    exact ⟨_, _, hexec, rfl, rfl, rfl⟩
  · obtain ⟨hoff, hlen, hroom⟩ := (updateStatus_ok_iff ..).1 ((verdict_ok_iff ..).1 hv).2
    have heffect := effect_update_withRegion k (hagree hoff hlen hroom)
    obtain ⟨c', hc', hexec⟩ := exec_of_verdict_ok (hverdict.trans hv)
    cases hc.symm.trans hc'
    refine ⟨_, _, hexec, ?_, rfl, rfl⟩
    rw [Instr.accepted, heffect]
    rfl

end Sys2Proof.Machine
end

section
/-! PROOFS. The command encoding (spec/30_encoding.md). One equivalence, `decode_eq_ok_iff`, says which words decode and
to what; the round trips, the list of reserved words (R77) and the rows of the opcode map (R75) follow from it and from the
fields of a command's word. Then the operand ports (R80, R84), the COUNT and DATA of a response (R86) and the
pseudo-command HASH (R88). -/

namespace Sys2Proof

/-! ### The fields of a word -/

/-- A word is that of four fields exactly when they are its fields (R70). -/
theorem cmdWord_eq_iff {rsv aux : Byte} {ctx : Slot} {opc : Byte} {w : Word} :
    cmdWord rsv aux ctx opc = w ↔ rsvField w = rsv ∧ auxField w = aux ∧ ctxField w = ctx ∧ opcField w = opc := by
  constructor
  · rintro rfl
    exact ⟨rsvField_cmdWord .., auxField_cmdWord .., ctxField_cmdWord .., opcField_cmdWord ..⟩
  · rintro ⟨rfl, rfl, rfl, rfl⟩
    exact cmdWord_fields w

/-- The reserved field of a command's word is zero (R74). -/
@[simp] theorem rsvField_encode (i : Instr) : rsvField (encode i) = 0 := by
  cases i <;> exact rsvField_cmdWord ..

/-! ### Which words decode -/

section Decode

variable {n : Nat} {w : Word} {i : Instr}

/-- UPDATE, DIGEST, DIGEST16 and RESET decode exactly with `aux` zero and a legal slot (R73, R85). -/
theorem decodeSlotOnly_eq_ok_iff {command : Slot → Instr} :
    decodeSlotOnly n w command = .ok i ↔
      auxField w = 0 ∧ Slot.legal n (ctxField w) = true ∧ command (ctxField w) = i := by
  unfold decodeSlotOnly
  split_ifs <;> simp_all

/-- UPDATE_BYTE decodes exactly with a legal slot (R73, R85). -/
theorem decodeUpdateByte_eq_ok_iff :
    decodeUpdateByte n w = .ok i ↔
      Slot.legal n (ctxField w) = true ∧ .updateByte (ctxField w) (auxField w) = i := by
  unfold decodeUpdateByte
  split_ifs <;> simp_all

/-- CLONE decodes exactly with two legal slots (R73, R85). -/
theorem decodeClone_eq_ok_iff :
    decodeClone n w = .ok i ↔
      Slot.legal n (ctxField w) = true ∧ Slot.legal n (auxField w) = true ∧ .clone (ctxField w) (auxField w) = i := by
  unfold decodeClone
  split_ifs <;> simp_all

/-- A word of an opcode with a zero `aux` is the word of the command it decodes to. -/
theorem encode_of_decodeSlotOnly {command : Slot → Instr} {opc : Byte}
    (henc : ∀ k, encode (command k) = cmdWord 0 0 k opc) (hwf : ∀ k, (command k).wf n = Slot.legal n k)
    (hrsv : rsvField w = 0) (hopc : opcField w = opc) (h : decodeSlotOnly n w command = .ok i) :
    i.wf n = true ∧ encode i = w := by
  obtain ⟨haux, hk, rfl⟩ := decodeSlotOnly_eq_ok_iff.1 h
  rw [henc, hwf]
  exact ⟨hk, cmdWord_eq_iff.2 ⟨hrsv, haux, rfl, hopc⟩⟩

/-- A word that decodes is the word of the command it decodes to, and that command's slots are legal. -/
theorem encode_of_decode (h : decode n w = .ok i) : i.wf n = true ∧ encode i = w := by
  unfold decode at h
  split_ifs at h with hrsv h1 h2 h3 h4 h5 h6
  all_goals replace hrsv := not_not.1 hrsv
  · exact encode_of_decodeSlotOnly (fun _ => rfl) (fun _ => rfl) hrsv h1 h
  · obtain ⟨hk, rfl⟩ := decodeUpdateByte_eq_ok_iff.1 h
    exact ⟨hk, cmdWord_eq_iff.2 ⟨hrsv, rfl, rfl, h2⟩⟩
  · exact encode_of_decodeSlotOnly (fun _ => rfl) (fun _ => rfl) hrsv h3 h
  · exact encode_of_decodeSlotOnly (fun _ => rfl) (fun _ => rfl) hrsv h4 h
  · exact encode_of_decodeSlotOnly (fun _ => rfl) (fun _ => rfl) hrsv h5 h
  · obtain ⟨hk, hd, rfl⟩ := decodeClone_eq_ok_iff.1 h
    exact ⟨(Machine.wf_clone_iff ..).2 ⟨hk, hd⟩, cmdWord_eq_iff.2 ⟨hrsv, rfl, rfl, h6⟩⟩

/-- The word of a command whose slots are legal decodes to it. -/
theorem decode_encode (h : i.wf n = true) : decode n (encode i) = .ok i := by
  cases i with
  | update k => simpa [decode, encode, decodeSlotOnly_eq_ok_iff, Instr.wf] using h
  | updateByte k v => simpa [decode, encode, decodeUpdateByte_eq_ok_iff, Instr.wf] using h
  | digest k => simpa [decode, encode, decodeSlotOnly_eq_ok_iff, Instr.wf] using h
  | digest16 k => simpa [decode, encode, decodeSlotOnly_eq_ok_iff, Instr.wf] using h
  | reset k => simpa [decode, encode, decodeSlotOnly_eq_ok_iff, Instr.wf] using h
  | clone k d => simpa [decode, encode, decodeClone_eq_ok_iff, Machine.wf_clone_iff] using h

/-- The words that decode to a command: its own word, on a block that has its slots (R75, R76). -/
theorem decode_eq_ok_iff : decode n w = .ok i ↔ i.wf n = true ∧ encode i = w :=
  ⟨encode_of_decode, fun ⟨hwf, henc⟩ => henc ▸ decode_encode hwf⟩

end Decode

/-- Settles O2: the fields of a command's word pass every check of `decode` and name the command. -/
theorem decodeOfEncodeIsTheCommand : Obligations.DecodeOfEncodeIsTheCommand := by
  unfold Obligations.DecodeOfEncodeIsTheCommand
  exact fun _ _ => decode_encode

/-- Settles O3: the checks of `decode` fix every bit of the word that the command does not carry. -/
theorem encodeOfDecodeIsTheWord : Obligations.EncodeOfDecodeIsTheWord := by
  unfold Obligations.EncodeOfDecodeIsTheWord
  exact fun _ _ _ h => (encode_of_decode h).symm

/-! ### The reserved and illegal words -/

/-- The list of R77 over the named fields of the word. -/
theorem reservedWord_iff (n : Nat) (w : Word) :
    ReservedWord n w ↔
      opcField w = 0 ∨ 7 ≤ (opcField w).toNat ∨ rsvField w ≠ 0 ∨
      (auxField w ≠ 0 ∧ (opcField w = 1 ∨ opcField w = 3 ∨ opcField w = 4 ∨ opcField w = 5)) ∨
      n ≤ (ctxField w).toNat ∨ (opcField w = 6 ∧ n ≤ (auxField w).toNat) :=
  Iff.rfl

/-- The word of a command whose slots are legal is not reserved. -/
theorem not_reservedWord_encode {n : Nat} {i : Instr} (h : i.wf n = true) : ¬ ReservedWord n (encode i) := by
  rw [reservedWord_iff]
  cases i <;> simpa [encode, Instr.wf, Slot.legal] using h

/-- A reserved word does not decode. -/
theorem decode_of_reservedWord {n : Nat} {w : Word} (h : ReservedWord n w) : ∃ e, decode n w = .error e := by
  cases hdec : decode n w with
  | error e => exact ⟨e, rfl⟩
  | ok i =>
    obtain ⟨hwf, rfl⟩ := encode_of_decode hdec
    exact absurd h (not_reservedWord_encode hwf)

/-- Settles O4: the word of a legal command is not reserved, and a word that is not reserved is that of the command its
opcode names. -/
theorem decodeIsTotalByOpcode : Obligations.DecodeIsTotalByOpcode := by
  unfold Obligations.DecodeIsTotalByOpcode
  refine fun n w => ⟨decode_of_reservedWord, fun hw => decode_eq_ok_iff.2 ?_⟩
  rw [reservedWord_iff] at hw
  have haux (ho : opcField w = 1 ∨ opcField w = 3 ∨ opcField w = 4 ∨ opcField w = 5) : auxField w = 0 := by
    tauto
  simp only [not_or, not_and, not_le, ne_eq, not_not] at hw
  obtain ⟨hzero, hseven, hrsv, -, hctx, hdst⟩ := hw
  have hslot : Slot.legal n (ctxField w) = true := decide_eq_true hctx
  have hword {aux : Byte} {opc : Byte} (ha : auxField w = aux) (ho : opcField w = opc) :
      cmdWord 0 aux (ctxField w) opc = w := cmdWord_eq_iff.2 ⟨hrsv, ha, rfl, ho⟩
  split_ifs with h1 h2 h3 h4 h5
  · exact ⟨hslot, hword (haux (.inl h1)) h1⟩
  · exact ⟨hslot, hword rfl h2⟩
  · exact ⟨hslot, hword (haux (.inr (.inl h3))) h3⟩
  · exact ⟨hslot, hword (haux (.inr (.inr (.inl h4)))) h4⟩
  · exact ⟨hslot, hword (haux (.inr (.inr (.inr h5)))) h5⟩
  · have h6 : opcField w = 6 := by
      rw [opcField] at hzero hseven ⊢
      bv_omega
    exact ⟨(Machine.wf_clone_iff ..).2 ⟨hslot, decide_eq_true (hdst h6)⟩, hword rfl h6⟩

/-! ### The rows of the opcode map -/

/-- The match value of a command's row is its opcode alone (R75). -/
theorem tableMatch_eq (i : Instr) : tableMatch i = cmdWord 0 0 0 (opcField (encode i)) := by
  cases i <;> simp only [encode, opcField_cmdWord] <;> rfl

/-- A row fixes `rsv`, `opc` and, where the command's `aux` is zero, `aux`; it leaves the slot free (R75). -/
theorem tableMask_cases (i : Instr) :
    tableMask i = cmdWord 0xFF 0 0 0xFF ∨ tableMask i = cmdWord 0xFF 0xFF 0 0xFF ∧ auxField (encode i) = 0 := by
  cases i with
  | updateByte k v => exact .inl rfl
  | clone k d => exact .inl rfl
  | _ => exact .inr ⟨rfl, auxField_cmdWord ..⟩

/-- Masking a word masks each of its fields. -/
theorem and_cmdWord (w : Word) (rsv aux : Byte) (ctx : Slot) (opc : Byte) :
    w &&& cmdWord rsv aux ctx opc =
      cmdWord (rsvField w &&& rsv) (auxField w &&& aux) (ctxField w &&& ctx) (opcField w &&& opc) := by
  conv_lhs => rw [← cmdWord_fields w]
  simp only [cmdWord]
  rw [BitVec.and_append, BitVec.and_append, BitVec.and_append]

/-- A mask of ones keeps a field. -/
theorem byte_and_ones (b : Byte) : b &&& 0xFF = b := BitVec.and_allOnes

/-- A command's word matches its row (R75). -/
theorem encode_and_tableMask (i : Instr) : encode i &&& tableMask i = tableMatch i := by
  rw [tableMatch_eq]
  rcases tableMask_cases i with h | ⟨h, haux⟩
  · rw [h, and_cmdWord, rsvField_encode, byte_and_ones, byte_and_ones]
    simp
  · rw [h, and_cmdWord, rsvField_encode, haux, byte_and_ones, byte_and_ones]
    simp

/-- A word that matches a row has the opcode of the row. -/
theorem tableMatch_of_and {i : Instr} {w : Word} (h : w &&& tableMask i = tableMatch i) :
    tableMatch i = cmdWord 0 0 0 (opcField w) := by
  have hopc : opcField (w &&& tableMask i) = opcField w := by
    rcases tableMask_cases i with hm | ⟨hm, -⟩ <;> rw [hm, and_cmdWord, opcField_cmdWord, byte_and_ones]
  rw [← hopc, h, tableMatch_eq, opcField_cmdWord]

/-- Settles O5: a word that matches a row fixes the opcode, and the opcode fixes the row's match value. -/
theorem opcodeRowsMatchAndAreDisjoint : Obligations.OpcodeRowsMatchAndAreDisjoint := by
  unfold Obligations.OpcodeRowsMatchAndAreDisjoint
  exact ⟨encode_and_tableMask, fun i i' w h h' => (tableMatch_of_and h).trans (tableMatch_of_and h').symm⟩

end Sys2Proof

namespace Sys2Proof.Machine

/-- A step on a word that does not decode answers `IllegalCommand` (R76, R204). -/
theorem step_of_decode_error {s : State} {c : Command} {rest : List Command} {e : Illegal}
    (hcmd : s.commands = c :: rest) (hdec : decode s.nctx c.word = .error e) :
    step s = .next (raise .illegalCommand (accept c rest s)) := by
  simp only [step, hcmd, hdec]

/-- Settles O7: a reserved word does not decode, and the step then answers with an error alone. -/
theorem reservedWordIsAnswered : Obligations.ReservedWordIsAnswered := by
  unfold Obligations.ReservedWordIsAnswered
  intro s c rest hcmd hres
  obtain ⟨e, hdec⟩ := decode_of_reservedWord hres
  exact step_of_decode_error hcmd hdec

/-! ### The operand ports -/

/-- `sext_32` is the signed reading of its word: in range, and the word modulo 2^32 (R10, R84). -/
theorem sext32_range (w : Word) : -(2 ^ 31) ≤ sext32 w ∧ sext32 w < 2 ^ 31 ∧ sext32 w % 2 ^ 32 = (w.toNat : Int) := by
  refine ⟨BitVec.le_toInt w, BitVec.toInt_lt, ?_⟩
  rw [sext32, BitVec.toInt_eq_toNat_bmod]
  exact Int.bmod_emod.trans (Int.emod_eq_of_lt (by omega) (by exact_mod_cast w.isLt))

/-- Settles O57: off and len are `sext_32` of the two ports. -/
theorem operandsAreSigned : Obligations.OperandsAreSigned := by
  unfold Obligations.OperandsAreSigned
  exact fun s => ⟨sext32_range _, sext32_range _⟩

section PlainCommands

variable {i : Instr} (h : i.readsPorts = false) (s : State) (p : Ports) (c : Context)

include h

/-- A command that reads no ports checks no operand (R80). -/
theorem check_of_not_readsPorts : i.check s = .ok := by
  cases i with
  | update k | digest k => cases h
  | _ => rfl

/-- The verdict on such a command is the same on all ports. -/
theorem verdict_withPorts : i.verdict { s with ports := p } = i.verdict s := by
  rw [Instr.verdict, check_of_not_readsPorts h, Instr.verdict, check_of_not_readsPorts h]
  rfl

/-- Such a command makes the same of its slot on all ports. -/
theorem effect_withPorts : i.effect { s with ports := p } c = i.effect s c := by
  cases i with
  | update k | digest k => cases h
  | _ => rfl

/-- Such a command answers the same on all ports but for REGION' (R86). -/
theorem answer_withPorts : i.answer { s with ports := p } c = { i.answer s c with region := p.region } := by
  cases i with
  | update k | digest k => cases h
  | _ => rfl

end PlainCommands

/-- Settles O45: neither verdict nor effect nor answer of such a command depends on the ports, but for REGION'. -/
theorem portsAreIgnored : Obligations.PortsAreIgnored := by
  unfold Obligations.PortsAreIgnored
  intro i s t p hports h
  have hverdict := verdict_withPorts hports s p
  rcases exec_next_cases h with ⟨hv, rfl⟩ | ⟨hv, c, hc, rfl⟩
  · refine ⟨_, rfl, rfl, ?_⟩
    rw [exec_of_verdict_error (hverdict.trans_ne hv), hverdict]
    rfl
  · obtain ⟨c', hc', hexec⟩ := exec_of_verdict_ok (hverdict.trans hv)
    cases hc.symm.trans hc'
    have hne : ∀ k, i ≠ .digest k := by
      rintro k rfl
      cases hports
    refine ⟨_, rfl, answer_region_of_ne_digest hne s c, ?_⟩
    rw [hexec, Instr.accepted, effect_withPorts hports, answer_withPorts hports]
    rfl

/-! ### The response -/

/-- COUNT of an accepted command is 16 for DIGEST and 0 for the others (R86). -/
theorem answer_count (i : Instr) (s : State) (c : Context) :
    (i.answer s c).count = if ∃ k, i = .digest k then 16 else 0 := by
  cases i with
  | digest k => exact (if_pos ⟨k, rfl⟩).symm
  | _ => exact (if_neg fun ⟨_, he⟩ => by cases he).symm

/-- DATA of an accepted command other than DIGEST16 is zeros (R86). -/
theorem answer_data_of_ne_digest16 {i : Instr} (h : ¬ ∃ k, i = .digest16 k) (s : State) (c : Context) :
    (i.answer s c).data = zeroData := by
  cases i with
  | digest16 k => exact absurd ⟨k, rfl⟩ h
  | _ => rfl

/-- Settles O40: an error carries count 0 and zeros, and an accepted command its answer. -/
theorem responseCountAndData : Obligations.ResponseCountAndData := by
  unfold Obligations.ResponseCountAndData
  intro i s t r h hr
  rcases exec_next_cases h with ⟨hv, rfl⟩ | ⟨-, c, hc, rfl⟩
  · cases List.append_cancel_left hr
    exact ⟨(if_neg fun hand => hv hand.2).symm, fun _ => rfl, fun _ _ _ hok => absurd hok hv⟩
  · cases List.append_cancel_left hr
    simp only [answer_status, and_true]
    refine ⟨answer_count i s c, fun hne => answer_data_of_ne_digest16 hne s c, ?_⟩
    rintro k c' rfl - hc'
    cases hc.symm.trans hc'
    rfl

/-! ### The pseudo-command HASH -/

/-- A step on the word of a command that passes its checks leaves the accepted state (R57, R76). -/
theorem step_of_encode {s : State} {cmd : Command} {rest : List Command} {i : Instr} {c : Context}
    (hcmd : s.commands = cmd :: rest) (hword : encode i = cmd.word) (hwf : i.wf s.nctx = true)
    (hcheck : i.check (accept cmd rest s) = .ok) (hc : s.slot? i.writes = some c) :
    step s = .next (i.accepted (accept cmd rest s) c) := by
  obtain ⟨c', hc', hexec⟩ := exec_of_check_ok (s := accept cmd rest s) hwf hcheck
  cases hc.symm.trans hc'
  rw [step_of_decode hcmd (decode_eq_ok_iff.2 ⟨hwf, hword⟩), hexec]

/-- The extent of a region within `MAX_EXTENT`, put on a 32-bit port, reads back as itself (R81, R84). -/
theorem sext32_ofNat_of_le {n : Nat} (h : n ≤ Config.maxExtent) : sext32 (BitVec.ofNat 32 n) = n := by
  rw [Config.maxExtent] at h
  have hn : (BitVec.ofNat 32 n).toNat = n := by
    rw [BitVec.toNat_ofNat]
    omega
  rw [sext32, BitVec.toInt_eq_toNat_of_lt (by omega), hn]

/-- UPDATE_ALL passes the region check (R88, R201). -/
theorem updateStatus_whole {n : Nat} (h : n ≤ Config.maxExtent) :
    updateStatus (sext32 0) (sext32 (BitVec.ofNat 32 n)) n = .ok := by
  rw [sext32_ofNat_of_le h, updateStatus_ok_iff]
  exact ⟨le_rfl, Int.natCast_nonneg n, (Int.zero_add _).le⟩

/-- UPDATE_ALL reads every byte of its region, in order (R88, R103). -/
theorem sourceBytes_whole {r : Region} (h : r.length ≤ Config.maxExtent) :
    sourceBytes r (sext32 0).toNat (sext32 (BitVec.ofNat 32 r.length)).toNat = r := by
  rw [sext32_ofNat_of_le h, Int.toNat_natCast, sourceBytes]
  exact List.take_length

/-- An accepted command keeps the number of slots. -/
theorem accepted_nctx (i : Instr) (s : State) (c : Context) : (i.accepted s c).nctx = s.nctx := setSlot_nctx ..

/-- The slot an accepted command writes then holds its effect. -/
theorem accepted_slot? {i : Instr} {s : State} (c : Context) (h : i.writes.toNat < s.nctx) :
    (i.accepted s c).slot? i.writes = some (i.effect s c) :=
  slot?_setSlot_self s _ _ h

/-- Settles O55: RESET leaves the slot standing for the empty message, UPDATE for the region, and DIGEST16 then returns
its MD5. -/
theorem hashPseudoCommandIsMd5 : Obligations.HashPseudoCommandIsMd5 := by
  unfold Obligations.HashPseudoCommandIsMd5
  intro s k r hk hr hcmd
  obtain ⟨c, hc⟩ := (slot?_eq_some_iff s k).2 hk
  have hlegal : Slot.legal s.nctx k = true := decide_eq_true hk
  set s₁ := (Instr.reset k).accepted (accept (.plain (.reset k)) [updateAllCommand k r, .plain (.digest16 k)] s) c
  have hstep₁ : step s = .next s₁ := step_of_encode hcmd rfl hlegal rfl hc
  have hn₁ : s₁.nctx = s.nctx := accepted_nctx ..
  have hslot₁ : s₁.slot? k = some Context.reset := accepted_slot? c hk
  set s₂ := (Instr.update k).accepted (accept (updateAllCommand k r) [.plain (.digest16 k)] s₁) Context.reset
  have hstep₂ : step s₁ = .next s₂ := step_of_encode rfl rfl (hn₁ ▸ hlegal) (updateStatus_whole hr) hslot₁
  have hn₂ : s₂.nctx = s.nctx := (accepted_nctx ..).trans hn₁
  have hslot₂ : s₂.slot? k = some (Context.reset.update r) := by
    refine (accepted_slot? (i := .update k) _ (hn₁ ▸ hk)).trans ?_
    exact congrArg (some <| Context.reset.update ·) (sourceBytes_whole hr)
  have hstep₃ := step_of_encode (i := .digest16 k) (s := s₂) (rest := []) rfl rfl (hn₂ ▸ hlegal) rfl hslot₂
  have hmd5 : (Context.reset.update r).finalize = md5 r := (represents_reset.update r).finalize_eq_md5
  refine ⟨_, (run_of_step 2 _ _ hstep₁).trans <| (run_of_step 1 _ _ hstep₂).trans <| run_of_step 0 _ _ hstep₃,
    (List.set_set ..).trans (List.set_set ..), rfl, ?_⟩
  rw [← hmd5]
  exact (List.append_assoc ..).trans (List.append_assoc ..)

end Sys2Proof.Machine
end

section
/-! PROOFS. The accumulator (spec/40_accumulator.md): what absorbing any bytes leaves of a record, and from it the
source's bulk path (R104); the four commands of the accumulator, word and effect (R103, R105, R106, R107); streams of
commands that feed one slot (R108); and the independence of a clone and its original (R109). -/

namespace Sys2Proof.Machine

/-! ### Absorbing one byte -/

/-- Settles O20: the two branches of `absorb`. -/
theorem absorbOneByte : Obligations.AbsorbOneByte := by
  unfold Obligations.AbsorbOneByte
  refine fun c v => ⟨absorb_of_lt c v, fun hfull => ?_⟩
  rw [absorb_of_full c v (by omega)]
  simp only [hfull]

/-! ### Compressions run by absorbing -/

/-- Absorbing runs one compression for every 64 bytes held and absorbed (R101). -/
theorem compressionsRun_eq_div (c : Context) (bs : List Byte) :
    compressionsRun c bs = (c.bufferLength.val + bs.length) / 64 := by
  induction bs generalizing c with
  | nil => exact (Nat.div_eq_of_lt c.bufferLength.isLt).symm
  | cons v bs ih =>
    rw [compressionsRun, ih, absorb_bufferLength, List.length_cons]
    split <;> omega

/-- Settles O21, by induction on the absorbed bytes. -/
theorem compressionsRunByAbsorb : Obligations.CompressionsRunByAbsorb := by
  unfold Obligations.CompressionsRunByAbsorb
  exact fun c bs => ⟨compressionsRun_eq_div c bs, absorbAll_bufferLength_eq_mod c bs⟩

/-! ### Absorbing within one block -/

/-- Bytes that do not fill the block leave every buffer byte outside those they are stored to (R100). -/
theorem absorbAll_buf_outside (c : Context) (bs : List Byte) (h : c.bufferLength.val + bs.length < 64) (i : Nat)
    (hi : i < 64) (hout : i < c.bufferLength.val ∨ c.bufferLength.val + bs.length ≤ i) :
    (c.absorbAll bs).buf[i] = c.buf[i] := by
  induction bs generalizing c with
  | nil => rfl
  | cons v bs ih =>
    rw [List.length_cons] at h hout
    rw [absorbAll_cons, absorb_of_lt c v (by omega), ih _ (by simp only; omega) (by simp only; omega)]
    exact Vector.getElem_set_ne c.bufferLength.isLt hi (by omega)

/-- Bytes that do not fill the block are stored in order from `bufferLength` on (R100). -/
theorem absorbAll_buf_stored (c : Context) (bs : List Byte) (h : c.bufferLength.val + bs.length < 64) (j : Nat)
    (hj : j < bs.length) (hb : c.bufferLength.val + j < 64) :
    (c.absorbAll bs).buf[c.bufferLength.val + j] = bs[j] := by
  induction bs generalizing c j with
  | nil => exact absurd hj (Nat.not_lt_zero j)
  | cons v bs ih =>
    rw [List.length_cons] at h hj
    have hlt : c.bufferLength.val + 1 < 64 := by omega
    have hL : (c.absorb v).bufferLength.val = c.bufferLength.val + 1 := by rw [absorb_of_lt c v hlt]
    cases j with
    | zero =>
      rw [absorbAll_cons, absorbAll_buf_outside _ _ (by omega) _ hb (by omega), absorb_of_lt c v hlt]
      exact Vector.getElem_set_self _
    | succ j =>
      have hrest := ih (c.absorb v) (by omega) j (by omega) (by omega)
      simpa only [hL, Nat.add_assoc, Nat.add_comm 1 j, absorbAll_cons, List.getElem_cons_succ] using hrest

/-- Settles O22: no compression runs, so only the stored bytes and `bufferLength` change. -/
theorem absorbWithinBlockFrame : Obligations.AbsorbWithinBlockFrame := by
  unfold Obligations.AbsorbWithinBlockFrame
  intro c bs h
  have hlen : (c.pending ++ bs).length < 64 := by rwa [List.length_append, pending_length]
  refine ⟨?_, absorbAll_totalBytes c bs, ?_, fun i => absorbAll_buf_outside c bs h i i.isLt,
    absorbAll_buf_stored c bs h⟩
  · rw [absorbAll_state_eq_foldl, fullBlocks_of_lt _ hlen, List.foldl_nil]
  · rw [absorbAll_bufferLength_eq_mod, Nat.mod_eq_of_lt h]

/-! ### The bulk path -/

/-- The bytes of a sequence after its full blocks (R104). -/
def trailing (bytes : List Byte) : List Byte := bytes.drop (64 * (bytes.length / 64))

/-- Fewer than 64 bytes are all trailing. -/
theorem trailing_of_lt (bytes : List Byte) (h : bytes.length < 64) : trailing bytes = bytes := by
  rw [trailing, Nat.div_eq_of_lt h, Nat.mul_zero, List.drop_zero]

/-- The first 64 bytes of a sequence are a full block, so the trailing bytes are those of the others. -/
theorem trailing_append_of_length (xs bs : List Byte) (h : xs.length = 64) : trailing (xs ++ bs) = trailing bs := by
  rw [trailing, List.length_append, List.drop_append, List.drop_of_length_le (by omega), List.nil_append, trailing]
  congr 1
  omega

/-- After absorbing, what is pending are the bytes after the full blocks of the pending and the absorbed bytes. -/
theorem pending_absorbAll (c : Context) (bs : List Byte) :
    (c.absorbAll bs).pending = trailing (c.pending ++ bs) := by
  induction bs generalizing c with
  | nil =>
    have hlt : c.pending.length < 64 := by rw [pending_length]; exact c.bufferLength.isLt
    rw [List.append_nil, trailing_of_lt _ hlt, absorbAll_nil]
  | cons v bs ih =>
    rw [absorbAll_cons, ih, List.append_cons]
    rcases bufferLength_cases c with h | h
    · rw [pending_absorb_of_lt c v h]
    · have hlen : (c.pending ++ [v]).length = 64 := by rwa [List.length_append, pending_length]
      rw [pending_absorb_of_full c v h, trailing_append_of_length _ _ hlen, List.nil_append]

/-- A buffer with zeros from `bufferLength` on is the pending bytes copied into a cleared buffer (R27). -/
theorem bufferOf_pending (c : Context) (h : ∀ i : Fin 64, c.bufferLength ≤ i → c.buf[i.val] = 0) :
    bufferOf c.pending = c.buf := by
  ext i hi : 1
  rw [bufferOf, blockAt_getElem _ _ _ hi, Nat.mul_zero, Nat.zero_add]
  by_cases hlt : i < c.bufferLength.val
  · rw [List.getD_eq_getElem _ _ (by rwa [pending_length])]
    simp [Context.pending]
  · rw [List.getD_eq_default _ _ (by rw [pending_length]; omega)]
    exact (h ⟨i, hi⟩ (Nat.le_of_not_lt hlt)).symm

/-- Settles O23: state words, buffer and `bufferLength` are on both paths the same functions of the pending and the
absorbed bytes; the buffer by R27. -/
theorem bulkPathLeavesTheSameRecord : Obligations.BulkPathLeavesTheSameRecord := by
  unfold Obligations.BulkPathLeavesTheSameRecord
  rintro c bs ⟨-, htail⟩
  have hbuf : bufferOf (trailing (c.pending ++ bs)) = (c.absorbAll bs).buf := by
    rw [← pending_absorbAll, bufferOf_pending _ (absorbAll_tail c bs htail)]
  have hlen : Fin.ofNat 64 (c.pending ++ bs).length = (c.absorbAll bs).bufferLength := by
    apply Fin.ext
    rw [absorbAll_bufferLength_eq_mod, List.length_append, pending_length]
    rfl
  calc c.absorbBulk bs
      = { c with
          state := (fullBlocks (c.pending ++ bs)).foldl compress c.state
          buf := bufferOf (trailing (c.pending ++ bs))
          bufferLength := Fin.ofNat 64 (c.pending ++ bs).length } := rfl
    _ = c.absorbAll bs := by
      rw [← absorbAll_state_eq_foldl, hbuf, hlen, ← absorbAll_totalBytes c bs]

/-! ### The commands of the accumulator -/

/-- The word of a command with a slot that does not exist is reserved (R77). -/
theorem reservedWord_encode {n : Nat} {i : Instr} (h : i.wf n = false) : ReservedWord n (encode i) := by
  rw [reservedWord_iff]
  cases i with
  | clone k d =>
    have hout : n ≤ k.toNat ∨ n ≤ d.toNat :=
      (Bool.and_eq_false_iff.1 h).imp (Nat.le_of_not_lt <| of_decide_eq_false ·)
        (Nat.le_of_not_lt <| of_decide_eq_false ·)
    simpa [encode] using hout
  | _ => simpa [encode, Instr.wf, Slot.legal] using h

/-- The word `encode` gives a command is its word on every block (R75, R76). -/
theorem isWordOf_encode (i : Instr) : IsWordOf i (encode i) :=
  ⟨rfl, fun _ => ⟨decode_encode, fun hwf => decode_of_reservedWord (reservedWord_encode hwf)⟩⟩

/-- The slot number of a record is legal (R85). -/
theorem legal_of_slot {s : State} {k : Slot} {c : Context} (h : s.slot? k = some c) : Slot.legal s.nctx k = true :=
  decide_eq_true ((slot?_eq_some_iff s k).1 ⟨c, h⟩)

/-- An accepted command has its effect on the record in the slot it writes. -/
theorem exec_of_slot {i : Instr} {s : State} {c : Context} (hwf : i.wf s.nctx = true) (hcheck : i.check s = .ok)
    (hc : s.slot? i.writes = some c) : exec i s = .next (i.accepted s c) := by
  obtain ⟨c', hc', hexec⟩ := exec_of_check_ok hwf hcheck
  cases hc.symm.trans hc'
  exact hexec

/-- The source bytes of an UPDATE within bounds are the bytes of the region from `off` on (R52, R103). -/
theorem eq_sourceBytes {r : Region} {off len : Nat} {bs : List Byte} (hlen : bs.length = len)
    (hbs : ∀ i, i < len → bs[i]? = r[off + i]?) : bs = sourceBytes r off len := by
  apply List.ext_getElem?
  intro i
  by_cases hi : i < len
  · rw [hbs i hi, sourceBytes_getElem? _ _ _ _ hi, srcRead]
  · rw [List.getElem?_eq_none (by omega), sourceBytes, List.getElem?_take_eq_none (by omega)]

/-- Settles O24: the region check decides between the effect and the error. -/
theorem updateAbsorbsOrIsRefused : Obligations.UpdateAbsorbsOrIsRefused := by
  unfold Obligations.UpdateAbsorbsOrIsRefused
  intro k s c hc
  have hwf : (Instr.update k).wf s.nctx = true := legal_of_slot hc
  refine ⟨isWordOf_encode (.update k), fun bs hoff hlen hroom hcount hbs => ?_, fun hout => ?_⟩
  · have hok : (Instr.update k).check s = .ok := (updateStatus_ok_iff ..).2 ⟨hoff, hlen, hroom⟩
    rw [exec_of_slot hwf hok hc, ← hcount, eq_sourceBytes hcount hbs]
    rfl
  · have hbounds : (Instr.update k).check s = .bufferBoundsError := if_pos hout
    have herr : (Instr.update k).check s ≠ .ok := by rw [hbounds]; decide
    rw [exec_of_check_error hwf herr, hbounds]
    rfl

/-- Settles O25: an UPDATE_BYTE on a slot that exists is accepted. -/
theorem updateByteAbsorbsItsByte : Obligations.UpdateByteAbsorbsItsByte := by
  unfold Obligations.UpdateByteAbsorbsItsByte
  exact fun k v s c hc => ⟨isWordOf_encode (.updateByte k v), exec_of_slot (legal_of_slot hc) rfl hc⟩

/-- Settles O26: a RESET on a slot that exists is accepted. -/
theorem resetRestoresCreationValues : Obligations.ResetRestoresCreationValues := by
  unfold Obligations.ResetRestoresCreationValues
  intro k s hk
  obtain ⟨c, hc⟩ := (slot?_eq_some_iff s k).2 hk
  exact ⟨isWordOf_encode (.reset k), exec_of_slot (legal_of_slot hc) rfl hc⟩

/-- The state a CLONE between existing slots leaves (R107). -/
theorem exec_clone_of_slot {k d : Slot} {s : State} {c : Context} (hc : s.slot? k = some c) (hd : d.toNat < s.nctx) :
    exec (.clone k d) s = .next (respondDone (s.setSlot d c)) := by
  obtain ⟨c', hc'⟩ := (slot?_eq_some_iff s d).2 hd
  have hwf : (Instr.clone k d).wf s.nctx = true := (wf_clone_iff ..).2 ⟨legal_of_slot hc, legal_of_slot hc'⟩
  rw [exec_of_slot hwf rfl hc', Instr.accepted, effect_clone hc]
  rfl

/-- Settles O27: writing a slot's own record back changes no slot. -/
theorem cloneCopiesTheSlot : Obligations.CloneCopiesTheSlot := by
  unfold Obligations.CloneCopiesTheSlot
  intro k d s c hc hd
  refine ⟨isWordOf_encode (.clone k d), ?_⟩
  rw [exec_clone_of_slot hc hd]
  by_cases hdk : d = k
  · rw [if_pos hdk, hdk, setSlot_self hc]
    rfl
  · rw [if_neg hdk]
    rfl

/-! ### Streams that feed one slot -/

/-- Updating with no bytes changes nothing (R103). -/
@[simp] theorem update_nil (c : Context) : c.update [] = c := by simp [Context.update, Context.count]

/-- Updating with two sequences one after the other is updating with them joined (R108). -/
theorem update_append (c : Context) (bs bs' : List Byte) : c.update (bs ++ bs') = (c.update bs).update bs' := by
  induction bs generalizing c with
  | nil => rw [List.nil_append, update_nil]
  | cons v bs ih => rw [List.cons_append, update_cons, ih, ← update_cons]

/-- A command that feeds bytes to a slot is accepted, and updates its record with them (R103, R105). -/
theorem step_of_feeds {s : State} {k : Slot} {c : Context} {cmd : Command} {rest : List Command} {bs : List Byte}
    (hcmd : s.commands = cmd :: rest) (hc : s.slot? k = some c) (h : Feeds s.nctx k cmd bs) :
    step s = .next (respondDone ((accept cmd rest s).setSlot k (c.update bs))) := by
  rcases h with ⟨v, hdec, rfl⟩ | ⟨hdec, hoff, hlen, hroom, rfl⟩
  · rw [step_of_decode hcmd hdec]
    exact exec_of_slot (legal_of_slot hc) rfl hc
  · have hok : (Instr.update k).check (accept cmd rest s) = .ok :=
      (updateStatus_ok_iff ..).2 ⟨hoff, hlen, hroom⟩
    rw [step_of_decode hcmd hdec]
    exact exec_of_slot (legal_of_slot hc) hok hc

/-- A run through a stream that feeds a slot updates its record with the joined groups (R108). -/
theorem run_of_feedsAll {commands : List Command} {groups : List (List Byte)} {s : State} {k : Slot} {c : Context}
    (hcmds : s.commands = commands) (hc : s.slot? k = some c) (h : FeedsAll s.nctx k commands groups) :
    ∃ t, run commands.length s = .next t ∧ t.slots = s.slots.set k.toNat (c.update groups.flatten) ∧
      t.responses.length = s.responses.length + commands.length := by
  induction commands generalizing groups s c with
  | nil =>
    cases groups with
    | nil =>
      refine ⟨s, rfl, ?_, rfl⟩
      rw [List.flatten_nil, update_nil, ← setSlot_slots, setSlot_self hc]
    | cons bs bss => exact h.elim
  | cons cmd rest ih =>
    cases groups with
    | nil => exact h.elim
    | cons bs bss =>
      obtain ⟨hfirst, hrest⟩ := h
      have hstep := step_of_feeds hcmds hc hfirst
      set s' := respondDone ((accept cmd rest s).setSlot k (c.update bs))
      have hn : s'.nctx = s.nctx := setSlot_nctx ..
      have hslot : s'.slot? k = some (c.update bs) :=
        slot?_setSlot_self (accept cmd rest s) k _ ((slot?_eq_some_iff s k).1 ⟨c, hc⟩)
      obtain ⟨t, hrun, hslots, hresponses⟩ := ih rfl hslot (hn ▸ hrest)
      refine ⟨t, (run_of_step _ _ _ hstep).trans hrun, ?_, ?_⟩
      · rw [hslots, List.flatten_cons, update_append]
        exact List.set_set ..
      · have hone : s'.responses.length = s.responses.length + 1 := List.length_append
        rw [hresponses, hone, List.length_cons]
        omega

/-- Settles O52, by induction on the stream: each command updates with its group, and updates join. -/
theorem chunkingInvariance : Obligations.ChunkingInvariance := by
  unfold Obligations.ChunkingInvariance
  exact fun s k c groups hc h => run_of_feedsAll rfl hc h

/-! ### A clone and its original -/

/-- A step through a stream that writes only slot `k` keeps every other slot, and leaves such a stream (R21, R109). -/
theorem step_of_writesOnly {s : State} {k j : Slot} (hj : j ≠ k) (h : WritesOnly s.nctx k s.commands) :
    ∃ s', step s = .next s' ∧ s'.slot? j = s.slot? j ∧ WritesOnly s'.nctx k s'.commands := by
  rcases step_cases s with ⟨-, hidle⟩ | ⟨cmd, rest, i, hcmd, hdec, hexec⟩ | ⟨cmd, rest, e, hcmd, -, hraise⟩
  · exact ⟨s, hidle, rfl, h⟩
  · obtain ⟨hfirst, hrest⟩ := List.forall_mem_cons.1 (hcmd ▸ h)
    obtain ⟨s', hs', hends⟩ := exec_endsOn i (accept cmd rest s)
    have hne : j.toNat ≠ i.writes.toNat := fun e => hj ((BitVec.eq_of_toNat_eq e).trans (hfirst i hdec))
    refine ⟨s', hexec.trans hs', hends.other_slot hne, ?_⟩
    rw [hends.nctx, hends.commands]
    exact hrest
  · exact ⟨_, hraise, rfl, (List.forall_mem_cons.1 (hcmd ▸ h)).2⟩

/-- A run through a stream that writes only slot `k` keeps every other slot (R109). -/
theorem run_keeps_slot_of_writesOnly {n : Nat} {s t : State} {k j : Slot} (hj : j ≠ k)
    (h : WritesOnly s.nctx k s.commands) (hrun : run n s = .next t) : t.slot? j = s.slot? j := by
  induction n generalizing s with
  | zero => cases hrun; rfl
  | succ n ih =>
    obtain ⟨s', hstep, hslot, hrest⟩ := step_of_writesOnly hj h
    rw [run_of_step _ _ _ hstep] at hrun
    rw [ih hrest hrun, hslot]

/-- DIGEST16 returns the digest of the record its slot holds (R175). -/
theorem digest16_returns_finalize {s : State} {k : Slot} {c : Context} (hc : s.slot? k = some c) :
    ∃ u r, exec (.digest16 k) s = .next u ∧ u.responses = s.responses ++ [r] ∧ r.data = c.finalize :=
  ⟨_, _, exec_digest16_of_slot hc, rfl, rfl⟩

/-- Settles O53: the CLONE leaves its source's record in both slots, and the run after it keeps the slot it does not
write. -/
theorem cloneIndependence : Obligations.CloneIndependence := by
  unfold Obligations.CloneIndependence
  intro n s t k d c first rest hdk hc hcmd hdec hrun
  obtain ⟨hwf, -⟩ := encode_of_decode hdec
  have hd : d.toNat < s.nctx := of_decide_eq_true ((wf_clone_iff ..).1 hwf).2
  set s' := respondDone ((accept first rest s).setSlot d c)
  have hstep : step s = .next s' := (step_of_decode hcmd hdec).trans (exec_clone_of_slot hc hd)
  have hn : s'.nctx = s.nctx := setSlot_nctx ..
  have hsource : s'.slot? k = some c := (slot?_setSlot_other _ _ _ _ hdk.symm).trans hc
  have hcopy : s'.slot? d = some c := slot?_setSlot_self _ _ _ hd
  rw [run_of_step _ _ _ hstep] at hrun
  refine ⟨fun hw => ?_, fun hw => ?_⟩
  · have hslot : t.slot? d = some c := (run_keeps_slot_of_writesOnly hdk (hn ▸ hw) hrun).trans hcopy
    exact ⟨hslot, digest16_returns_finalize hslot⟩
  · have hslot : t.slot? k = some c := (run_keeps_slot_of_writesOnly hdk.symm (hn ▸ hw) hrun).trans hsource
    exact ⟨hslot, digest16_returns_finalize hslot⟩

end Sys2Proof.Machine
end

section
/-! PROOFS. The block compressor (spec/41_compressor.md): the message words, the mixing functions and the schedule, each
said once, and from them the whole compression as the loop of R145. -/

namespace Sys2Proof.Machine

/-! ### The message words -/

/-- A message word is put together from four bytes of the block (R131). -/
theorem messageWords_getElem (blk : Block) (i : Nat) (h : i < 16) :
    (messageWords blk)[i] = le32 blk[4 * i] blk[4 * i + 1] blk[4 * i + 2] blk[4 * i + 3] := by
  simp [messageWords]

/-- Bit `i` of four bytes put together little-endian: the word is laid out as a command word is (R11, R70). -/
theorem le32_getLsbD (b0 b1 b2 b3 : Byte) (i : Nat) :
    (le32 b0 b1 b2 b3).getLsbD i =
      if i < 8 then b0.getLsbD i
      else if i < 16 then b1.getLsbD (i - 8)
      else if i < 24 then b2.getLsbD (i - 16)
      else b3.getLsbD (i - 24) :=
  cmdWord_getLsbD b3 b2 b1 b0 i

/-- Settles O16, by the byte that holds the bit. -/
theorem messageWordsAreLittleEndian : Obligations.MessageWordsAreLittleEndian := by
  unfold Obligations.MessageWordsAreLittleEndian
  intro blk i b
  have hbit := b.isLt
  rw [messageWords_getElem, le32_getLsbD]
  split_ifs with h8 h16 h24
  · simp [show b.val / 8 = 0 by omega, show b.val % 8 = b.val by omega]
  · simp [show b.val / 8 = 1 by omega, show b.val % 8 = b.val - 8 by omega]
  · simp [show b.val / 8 = 2 by omega, show b.val % 8 = b.val - 16 by omega]
  · simp [show b.val / 8 = 3 by omega, show b.val % 8 = b.val - 24 by omega]

/-! ### The mixing functions -/

section Mixing

variable (x y z : Word) {i : Nat}

/-- `F` chooses by the bit of `x` (R132). -/
theorem mixF_getLsbD (h : i < 32) :
    (mixF x y z).getLsbD i = if x.getLsbD i then y.getLsbD i else z.getLsbD i := by
  simp only [mixF, BitVec.getLsbD_or, BitVec.getLsbD_and, BitVec.getLsbD_not, h]
  cases x.getLsbD i <;> simp

/-- `G` chooses by the bit of `z` (R133). -/
theorem mixG_getLsbD (h : i < 32) :
    (mixG x y z).getLsbD i = if z.getLsbD i then x.getLsbD i else y.getLsbD i := by
  simp only [mixG, BitVec.getLsbD_or, BitVec.getLsbD_and, BitVec.getLsbD_not, h]
  cases z.getLsbD i <;> simp

/-- `H` is the parity of the three bits (R134). -/
theorem mixH_getLsbD : (mixH x y z).getLsbD i = ((x.getLsbD i ^^ y.getLsbD i) ^^ z.getLsbD i) := by
  simp [mixH]

/-- `I` flips the bit of `y` unless `x`'s is 0 and `z`'s is 1 (R135). -/
theorem mixI_getLsbD (h : i < 32) :
    (mixI x y z).getLsbD i = (y.getLsbD i ^^ (x.getLsbD i || !z.getLsbD i)) := by
  simp [mixI, h]

end Mixing

/-- Settles O12: each function by its bit lemma, and the spec's fixed words by evaluation. -/
theorem mixingFunctionsByBit : Obligations.MixingFunctionsByBit := by
  unfold Obligations.MixingFunctionsByBit
  exact ⟨fun x y z _ h => ⟨mixF_getLsbD x y z h, mixG_getLsbD x y z h, mixH_getLsbD x y z, mixI_getLsbD x y z h⟩,
    by decide⟩

/-! ### The schedule -/

/-- The message index is the formula of the step's round, on the global step (R136). -/
theorem messageIndex_val (j : Fin 64) :
    (messageIndex j).val =
      if j.val < 16 then j.val % 16 else if j.val < 32 then (5 * j.val + 1) % 16
      else if j.val < 48 then (3 * j.val + 5) % 16 else (7 * j.val) % 16 := by
  unfold messageIndex
  split_ifs <;> rfl

/-- A step and its place in the round leave the same message index: they differ by a multiple of 16
(92_eei_decisions.md D23). -/
theorem messageIndex_val_inRound (j : Fin 64) :
    (messageIndex j).val =
      if j.val < 16 then (j.val % 16) % 16 else if j.val < 32 then (5 * (j.val % 16) + 1) % 16
      else if j.val < 48 then (3 * (j.val % 16) + 5) % 16 else (7 * (j.val % 16)) % 16 := by
  rw [messageIndex_val]
  split_ifs <;> omega

/-- The rotation amount is the entry of the round's cycle (R137), looked up in each of the 64 steps. -/
theorem rotationAmount_eq_cycle (j : Fin 64) :
    [[7, 12, 17, 22], [5, 9, 14, 20], [4, 11, 16, 23], [6, 10, 15, 21]][j.val / 16]?.bind (·[j.val % 4]?) =
      some (rotationAmount j) := by
  decide +revert

/-- Every rotation amount is in 4..23 (R137). -/
theorem rotationAmount_range (j : Fin 64) : 4 ≤ rotationAmount j ∧ rotationAmount j ≤ 23 := by
  decide +revert

/-- The mixing function of a step, by its round (R139). -/
theorem mixFn_apply (j : Fin 64) (x y z : Word) :
    mixFn j x y z =
      if j.val < 16 then mixF x y z else if j.val < 32 then mixG x y z else if j.val < 48 then mixH x y z
      else mixI x y z := by
  unfold mixFn
  split_ifs <;> rfl

/-- Settles O14. -/
theorem scheduleOfEveryStep : Obligations.ScheduleOfEveryStep := by
  unfold Obligations.ScheduleOfEveryStep
  exact fun j => ⟨messageIndex_val j, messageIndex_val_inRound j, rotationAmount_eq_cycle j, rotationAmount_range j,
    mixFn_apply j⟩

/-! ### The compression -/

/-- `rotl32` rotates to the left by less than a whole word (R9). -/
theorem rotl32_eq_rotateLeft (x : Word) {n : Nat} (h : n < 32) : rotl32 x n = x.rotateLeft n := by
  rw [rotl32, BitVec.rotateLeft_def, Nat.mod_eq_of_lt h]

/-- The working variables as the four variables of the loop (R140). -/
def WorkingVars.toTuple (w : WorkingVars) : Word × Word × Word × Word := (w.a, w.b, w.c, w.d)

/-- The body of the loop of R145 on `(a, b, c, d)`, with `m[g(j)]` written out from the block's bytes (R131, R141). -/
def loopBody (blk : Block) (v : Word × Word × Word × Word) (j : Fin 64) : Word × Word × Word × Word :=
  let (a, b, c, d) := v
  let g := messageIndex j
  let m : Word := blk[4 * g.val + 3] ++ blk[4 * g.val + 2] ++ blk[4 * g.val + 1] ++ blk[4 * g.val]
  let temp := a + mixFn j b c d + m + roundConstant j
  (d, b + temp.rotateLeft (rotationAmount j), b, c)

/-- A step of the unit is one iteration of the loop (R141, R146). -/
theorem loopBody_toTuple (blk : Block) (w : WorkingVars) (j : Fin 64) :
    loopBody blk w.toTuple j = (compressStep (messageWords blk) w j).toTuple := by
  have hrot : rotationAmount j < 32 := by have := rotationAmount_range j; omega
  have hword : (messageWords blk).get (messageIndex j) = _ :=
    messageWords_getElem blk (messageIndex j).val (messageIndex j).isLt
  rw [compressStep, rotl32_eq_rotateLeft _ hrot, hword]
  rfl

/-- The working variables after the 64 steps of the unit are the loop's (R146). -/
theorem run_toTuple_eq_foldl (st : HashState) (blk : Block) :
    (CompressorRegs.run 64 (CompressorRegs.start st blk)).w.toTuple =
      (List.finRange 64).foldl (loopBody blk) (st.A, st.B, st.C, st.D) := by
  rw [unitHoldsTheLoopVariables st blk 64 le_rfl, List.take_of_length_le (by simp)]
  exact (List.foldl_hom WorkingVars.toTuple (loopBody_toTuple blk)).symm

/-- The unit's feed-forward adds the loop's four variables to the state words (R142). -/
theorem feedForward_eq_toTuple (st : HashState) (w : WorkingVars) :
    feedForward st w =
      { A := st.A + w.toTuple.1, B := st.B + w.toTuple.2.1, C := st.C + w.toTuple.2.2.1,
        D := st.D + w.toTuple.2.2.2 } :=
  rfl

/-- Settles O18: the unit's steps are the loop's iterations, and `compress` feeds its last working variables forward.
The closing comparison is of the two loops as written, and unfolds no fold. -/
theorem compressIsTheRfcLoop : Obligations.CompressIsTheRfcLoop := by
  unfold Obligations.CompressIsTheRfcLoop
  intro st blk
  rw [compress_eq, feedForward_eq_toTuple, run_toTuple_eq_foldl]
  unfold loopBody
  with_reducible rfl

/-- Settles O19, by evaluating the two compressions. -/
theorem compressesSpecBlocks : Obligations.CompressesSpecBlocks := by
  unfold Obligations.CompressesSpecBlocks
  exact ⟨by decide +kernel, by decide +kernel⟩

end Sys2Proof.Machine
end

section
/-! PROOFS. The finalizer (spec/42_finalizer.md): the padding's shape and length (R170), the bit length and its bytes
(R171, R178), what absorbing the padding does (R172, R177), the order of the output bytes (R174), and the two commands
that return a digest and leave their slot at reset (R173, R175, R176). -/

namespace Sys2Proof.Machine

/-! ### The padding -/

/-- The zero run reaches 56 modulo 64, and no shorter run does (R170). -/
theorem zeroRun_least (l : Nat) (h : l < 64) :
    (l + 1 + zeroRun l) % 64 = 56 ∧ ∀ z, z < zeroRun l → (l + 1 + z) % 64 ≠ 56 := by
  rw [zeroRun_eq_mod l h]
  exact ⟨by omega, fun z hz => by omega⟩

/-- The padding completes a partial block that has room for the length field, and otherwise the next block (R170). -/
theorem add_pad_length (l : Nat) (n : ByteCount) (h : l < 64) :
    l + (pad l n).length = if l ≤ 55 then 64 else 128 := by
  rw [pad_length, zeroRun]
  split <;> omega

/-- Settles O32: the zero run is the least that fits, and with the length field it ends a block. -/
theorem paddingShape : Obligations.PaddingShape := by
  unfold Obligations.PaddingShape
  intro l n h
  obtain ⟨hfits, hleast⟩ := zeroRun_least l h
  refine ⟨zeroRun l, rfl, hfits, hleast, rfl, ?_⟩
  have hlength := add_pad_length l n h
  split_ifs at hlength ⊢ <;> omega

/-! ### The bit length -/

/-- Multiplying by 8 drops the top three bits and appends three zeros (R171). -/
theorem bitLength_eq_append (n : ByteCount) : bitLength n = n.extractLsb' 0 61 ++ 0#3 :=
  calc bitLength n = n <<< 3 := (BitVec.shiftLeft_eq_mul_twoPow n 3).symm
    _ = n.extractLsb' 0 61 ++ 0#3 := BitVec.shiftLeft_eq_concat_of_lt (by decide)

/-- Settles O33: the bits and the value of the bit length, and that absorbing counts nothing. -/
theorem bitLengthDropsTopBits : Obligations.BitLengthDropsTopBits := by
  unfold Obligations.BitLengthDropsTopBits
  exact ⟨fun n => ⟨bitLength_eq_append n, BitVec.toNat_mul ..⟩, fun c => absorbAll_totalBytes ..⟩

/-- Byte `i` of a 64-bit value, least significant first (R11). -/
theorem le64bytes_getElem (q : BitVec 64) (i : Nat) (h : i < 8) : (le64bytes q)[i] = q.extractLsb' (8 * i) 8 := by
  match i with
  | 0 | 1 | 2 | 3 | 4 | 5 | 6 | 7 => rfl

/-- The last eight bytes of a padding are those of the bit length (R170). -/
theorem pad_getElem?_last (l : Nat) (n : ByteCount) (i : Nat) :
    (pad l n)[(pad l n).length - 8 + i]? = (le64bytes (bitLength n)).toList[i]? := by
  have hlast : (pad l n).length - 8 = ([0x80] ++ List.replicate (zeroRun l) (0 : Byte)).length := by
    rw [pad_length, List.length_append, List.length_replicate, List.length_singleton]
    omega
  rw [hlast, pad, List.getElem?_append_right (Nat.le_add_right _ _), Nat.add_sub_cancel_left]

/-- Settles O34: the last eight bytes are cut out of the bit length of the message. -/
theorem lengthBytesLittleEndian : Obligations.LengthBytesLittleEndian := by
  unfold Obligations.LengthBytesLittleEndian
  intro l n i hi
  have hbyte : (le64bytes (bitLength (BitVec.ofNat 64 n))).toList[i]? =
      some ((BitVec.ofNat 64 (n * 8)).extractLsb' (8 * i) 8) := by
    rw [Vector.getElem?_toList, Vector.getElem?_eq_getElem hi, le64bytes_getElem _ i hi, bitLength_ofNat]
  rw [pad_getElem?_last, hbyte, Option.map_some, BitVec.extractLsb'_toNat, BitVec.toNat_ofNat,
    Nat.shiftRight_eq_div_pow, Nat.pow_mul]

/-! ### Absorbing the padding -/

/-- The padding ends a block, so nothing is left in the buffer (R172). -/
theorem absorbAll_pad_bufferLength (c : Context) :
    (c.absorbAll (pad c.bufferLength.val c.totalBytes)).bufferLength = 0 := by
  apply Fin.ext
  rw [absorbAll_bufferLength_eq_mod, add_pad_length _ _ c.bufferLength.isLt]
  split <;> rfl

/-- Settles O36: one compression for each block the padding ends. -/
theorem finalizationCompressions : Obligations.FinalizationCompressions := by
  unfold Obligations.FinalizationCompressions
  intro c
  have hruns : compressionsRun c (pad c.bufferLength.val c.totalBytes) =
      if c.bufferLength.val ≤ 55 then 1 else 2 := by
    rw [compressionsRun_eq_div, add_pad_length _ _ c.bufferLength.isLt]
    split <;> rfl
  refine ⟨hruns, ?_⟩
  rintro ⟨hlen, -⟩
  rwa [← hlen]

/-! ### The output -/

/-- Settles O28: the serialization as a list, and the padding ends a block. -/
theorem finalizePadsAndSerializes : Obligations.FinalizePadsAndSerializes := by
  unfold Obligations.FinalizePadsAndSerializes
  refine fun c => ⟨?_, absorbAll_pad_bufferLength c⟩
  rw [finalize_eq, serialize_toList]
  rfl

/-- Byte `i` of a word, least significant first (R11). -/
theorem le32bytes_getElem (w : Word) (i : Nat) (h : i < 4) : (le32bytes w)[i] = w.extractLsb' (8 * i) 8 := by
  match i with
  | 0 | 1 | 2 | 3 => rfl

/-- Output byte `4w + i` is byte `i` of state word `w` (R174). -/
theorem serialize_getElem (st : HashState) (i : Nat) (h : i < 4) :
    (serialize st)[i] = (le32bytes st.A)[i] ∧ (serialize st)[4 + i] = (le32bytes st.B)[i] ∧
    (serialize st)[8 + i] = (le32bytes st.C)[i] ∧ (serialize st)[12 + i] = (le32bytes st.D)[i] := by
  have happend (j : Nat) (hj : j < 16) :
      (serialize st)[j] = (le32bytes st.A ++ le32bytes st.B ++ le32bytes st.C ++ le32bytes st.D :
        Vector Byte (4 + 4 + 4 + 4))[j] := rfl
  refine ⟨?_, ?_, ?_, ?_⟩
  · rw [happend, Vector.getElem_append_left (by omega), Vector.getElem_append_left (by omega),
      Vector.getElem_append_left h]
  · rw [happend, Vector.getElem_append_left (by omega), Vector.getElem_append_left (by omega),
      Vector.getElem_append_right (by omega) (by omega)]
    simp only [Nat.add_sub_cancel_left]
  · rw [happend, Vector.getElem_append_left (by omega), Vector.getElem_append_right (by omega) (by omega)]
    simp only [Nat.reduceAdd, Nat.add_sub_cancel_left]
  · rw [happend, Vector.getElem_append_right (by omega) (by omega)]
    simp only [Nat.reduceAdd, Nat.add_sub_cancel_left]

/-- Settles O35: the words in their order, each by its bytes. -/
theorem serializationOrder : Obligations.SerializationOrder := by
  unfold Obligations.SerializationOrder
  refine ⟨fun st i => ?_, finalize_eq⟩
  simpa only [le32bytes_getElem] using serialize_getElem st i.val i.isLt

/-! ### The two commands that return a digest -/

/-- Every byte of a region after a write of bytes it has room for (R53). -/
theorem outWriteAll_getElem? (r : Region) (off : Nat) (vs : List Byte) (h : off + vs.length ≤ r.length) (a : Nat) :
    (outWriteAll r off vs)[a]? = if off ≤ a ∧ a < off + vs.length then vs[a - off]? else r[a]? := by
  split
  · next hin =>
    obtain ⟨i, rfl⟩ := Nat.exists_eq_add_of_le hin.1
    rw [outWriteAll_inside _ _ _ _ (by omega) h, Nat.add_sub_cancel_left]
  · exact outWriteAll_outside _ _ _ _ (by omega)

/-- Settles O29: the region of the response is the digest written over the 16 bytes at `off`. -/
theorem digestWritesSixteenBytes : Obligations.DigestWritesSixteenBytes := by
  unfold Obligations.DigestWritesSixteenBytes
  intro k s c hc hlen hoff hroom
  have hok : digestStatus s.off s.len s.extent = .ok := (digestStatus_ok_iff ..).2 ⟨hlen, hoff, hroom⟩
  have hdigest : c.finalize.toList.length = 16 := finalize_length c
  refine ⟨isWordOf_encode (.digest k), _, outWriteAll_length .., fun a => ?_, exec_digest_of_ok hc hok⟩
  rw [outWriteAll_getElem? _ _ _ (by omega), hdigest]

/-- Settles O31: on a slot that exists nothing is left to check. -/
theorem digest16ReturnsTheDigest : Obligations.Digest16ReturnsTheDigest := by
  unfold Obligations.Digest16ReturnsTheDigest
  exact fun k s c hc => ⟨isWordOf_encode (.digest16 k), exec_digest16_of_slot hc⟩

/-- A slot of a block that is large enough holds the creation-time record at power-on (R33, R34). -/
theorem powerOn_slot? {n : Nat} {k : Slot} (h : k.toNat < n) : (State.powerOn n).slot? k = some Context.reset :=
  List.getElem?_replicate_of_lt h

/-- Settles O43: an OK response is that of an accepted command, whose effect on its slot is the reset. -/
theorem digestLeavesTheSlotAtReset : Obligations.DigestLeavesTheSlotAtReset := by
  unfold Obligations.DigestLeavesTheSlotAtReset
  intro k s t r i hi h hr hok
  rw [exec_status h hr] at hok
  rw [powerOn_slot? (Nat.lt_succ_self _)]
  rcases exec_next_cases h with ⟨hv, -⟩ | ⟨-, c, hc, rfl⟩
  · exact absurd hok hv
  · have hslot := accepted_slot? c ((slot?_eq_some_iff ..).1 ⟨c, hc⟩)
    rcases hi with rfl | rfl <;> exact hslot

end Sys2Proof.Machine
end

section
/-! PROOFS. The error conditions (spec/60_exceptions.md): an error is `raise` and nothing else, in a command and in a step
(R206), and the two checks of DIGEST in their order (R202, R203, R205). -/

namespace Sys2Proof.Machine

/-! ### An error leaves no trace -/

/-- A command that answers with an error leaves that answer and nothing else (R206). -/
theorem eq_raise_of_exec {i : Instr} {s t : State} {r : Response} (h : exec i s = .next t)
    (hr : t.responses = s.responses ++ [r]) (herr : r.status ≠ .ok) : t = raise r.status s := by
  rw [exec_status h hr] at herr ⊢
  rcases exec_next_cases h with ⟨-, ht⟩ | ⟨hok, -⟩
  · exact ht
  · exact absurd hok herr

/-- A step that answers with an error takes the command and leaves that answer and nothing else (R204, R206). -/
theorem eq_raise_of_step {s t : State} {c : Command} {rest : List Command} {r : Response}
    (hcmd : s.commands = c :: rest) (h : step s = .next t) (hr : t.responses = s.responses ++ [r])
    (herr : r.status ≠ .ok) : t = raise r.status (accept c rest s) := by
  cases hdec : decode s.nctx c.word with
  | ok i => exact eq_raise_of_exec ((step_of_decode hcmd hdec).symm.trans h) hr herr
  | error e =>
    cases h.symm.trans (step_of_decode_error hcmd hdec)
    cases List.append_cancel_left hr
    rfl

/-- Settles O39: the next state after an error is `raise` of its status. -/
theorem errorsLeaveNoTrace : Obligations.ErrorsLeaveNoTrace := by
  unfold Obligations.ErrorsLeaveNoTrace
  exact ⟨fun _ _ _ _ => eq_raise_of_exec, fun _ _ _ _ _ => eq_raise_of_step⟩

/-! ### The errors of DIGEST -/

/-- A length below 16 is a partial digest, whatever the room (R202, R205). -/
theorem digestStatus_of_len_lt {off len : Int} {extent : Nat} (h : len < 16) :
    digestStatus off len extent = .partialDigestUnsupportedError := if_pos h

/-- Past the length check, fewer than 16 bytes at `off` are insufficient space (R203). -/
theorem digestStatus_of_no_room {off len : Int} {extent : Nat} (hlen : 16 ≤ len)
    (hroom : off < 0 ∨ off > extent ∨ extent - off < 16) :
    digestStatus off len extent = .insufficientOutputSpaceError :=
  (if_neg (Int.not_lt.2 hlen)).trans (if_pos hroom)

/-- A DIGEST whose operands fail a check, on a slot that exists, is answered with that check's error (R206). -/
theorem exec_digest_of_error {k : Slot} {s : State} {e : Status} (hk : k.toNat < s.nctx) (he : e ≠ .ok)
    (hcheck : digestStatus s.off s.len s.extent = e) : exec (.digest k) s = .next (raise e s) := by
  subst hcheck
  exact exec_of_check_error (i := .digest k) (decide_eq_true hk) he

/-- Settles O30: each of the two checks by its status. -/
theorem digestRefusalsInOrder : Obligations.DigestRefusalsInOrder := by
  unfold Obligations.DigestRefusalsInOrder
  intro k s hk
  refine ⟨fun hlen => ?_, fun hlen hroom => ?_⟩
  · exact exec_digest_of_error hk (by decide) (digestStatus_of_len_lt hlen)
  · exact exec_digest_of_error hk (by decide) (digestStatus_of_no_room hlen hroom)

end Sys2Proof.Machine
end

section
/-! PROOFS. Liveness (spec/70_reset_and_hazards.md): a step with a command issued takes it and gives one response (R242). -/

namespace Sys2Proof.Machine

/-- Settles O8: a word that decodes runs a command, which ends with one response (`exec_endsOn`); any other word is
answered by `raise`. -/
theorem everyCommandGetsOneResponse : Obligations.EveryCommandGetsOneResponse := by
  unfold Obligations.EveryCommandGetsOneResponse
  intro s c rest hcmd
  cases hdec : decode s.nctx c.word with
  | ok i =>
    obtain ⟨t, hexec, hends⟩ := exec_endsOn i (accept c rest s)
    obtain ⟨r, hr⟩ := hends.responses
    exact ⟨t, r, (step_of_decode hcmd hdec).trans hexec, hends.commands, hr⟩
  | error e => exact ⟨_, _, step_of_decode_error hcmd hdec, raise_commands .., raise_responses ..⟩

end Sys2Proof.Machine
end

section
/-! PROOFS. The round constants (spec/41_compressor.md rule R138), by the angle addition of sines: `sin n` is the imaginary
part of `(e^i)^n`, a Taylor polynomial gives `e^i` as a Gaussian integer over a fixed denominator, and the powers of that
integer are exact. Then the step (R76, R216), power-on (R230), the rotation (R9), and the spec's fixed words, messages and
status codes. -/

namespace Sys2Proof.Machine

/-! ### The value `e^i` by its Taylor polynomial -/

/-- The common denominator `19!` of the Taylor polynomial of degree 19. -/
def taylorScale : ℕ := (19).factorial

theorem taylorScale_pos : 0 < taylorScale := Nat.factorial_pos 19

/-- The Taylor polynomial of `e^x` of degree 19 at `x = i`, scaled by `taylorScale` to a Gaussian integer. -/
def scaledExpI : GaussianInt :=
  ∑ m ∈ Finset.range 20, ((taylorScale / m.factorial : ℕ) : GaussianInt) * ⟨0, 1⟩ ^ m

/-- The scaled value lies in the disc of radius `taylorScale`. -/
theorem norm_scaledExpI_le : scaledExpI.norm ≤ (taylorScale : ℤ) ^ 2 := by decide +kernel

/-- The approximation of `e^i` that the scaled value stands for. -/
noncomputable def approxExpI : ℂ := GaussianInt.toComplex scaledExpI / (taylorScale : ℂ)

/-- The approximation is the Taylor polynomial of the exponential at `i`. -/
theorem approxExpI_eq_sum : approxExpI = ∑ m ∈ Finset.range 20, Complex.I ^ m / (m.factorial : ℂ) := by
  have hI : GaussianInt.toComplex ⟨0, 1⟩ = Complex.I := by simp [GaussianInt.toComplex_def]
  rw [approxExpI, scaledExpI, map_sum, Finset.sum_div]
  refine Finset.sum_congr rfl fun m hm => ?_
  have hdvd : m.factorial ∣ taylorScale := Nat.factorial_dvd_factorial (Nat.le_of_lt_succ (Finset.mem_range.1 hm))
  have hfact : (m.factorial : ℂ) ≠ 0 := Nat.cast_ne_zero.2 m.factorial_ne_zero
  have hscale : (taylorScale : ℂ) ≠ 0 := Nat.cast_ne_zero.2 taylorScale_pos.ne'
  rw [map_mul, map_natCast, map_pow, hI, Nat.cast_div hdvd hfact]
  field_simp

/-- The remainder of the Taylor polynomial of degree 19 is below `2^-58`. -/
theorem norm_exp_I_sub_approxExpI_le : ‖Complex.exp Complex.I - approxExpI‖ ≤ 1 / 2 ^ 58 := by
  rw [approxExpI_eq_sum]
  refine (Complex.exp_bound (by rw [Complex.norm_I]) (by decide)).trans ?_
  rw [Complex.norm_I]
  norm_num [Nat.factorial]

/-- The approximation lies in the unit disc, as `e^i` does. -/
theorem norm_approxExpI_le_one : ‖approxExpI‖ ≤ 1 := by
  have hsq : ‖GaussianInt.toComplex scaledExpI‖ ^ 2 ≤ (taylorScale : ℝ) ^ 2 := by
    rw [← Complex.normSq_eq_norm_sq, ← GaussianInt.intCast_real_norm]
    exact_mod_cast norm_scaledExpI_le
  rw [approxExpI, norm_div, Complex.norm_natCast]
  exact div_le_one_of_le₀ (abs_le_of_sq_le_sq' hsq (by positivity)).2 (by positivity)

/-! ### The sines as imaginary parts of powers -/

/-- On the unit disc the `n`-th power stretches a distance by at most `n`. -/
theorem norm_pow_sub_pow_le {a b : ℂ} (ha : ‖a‖ ≤ 1) (hb : ‖b‖ ≤ 1) (n : ℕ) : ‖a ^ n - b ^ n‖ ≤ n * ‖a - b‖ := by
  induction n with
  | zero => simp
  | succ n ih =>
    have hsplit : a ^ (n + 1) - b ^ (n + 1) = (a ^ n - b ^ n) * a + b ^ n * (a - b) := by ring
    have hpow : ‖b ^ n‖ ≤ 1 := by rw [norm_pow]; exact pow_le_one₀ (norm_nonneg _) hb
    calc ‖a ^ (n + 1) - b ^ (n + 1)‖
        ≤ ‖(a ^ n - b ^ n) * a‖ + ‖b ^ n * (a - b)‖ := hsplit ▸ norm_add_le _ _
      _ = ‖a ^ n - b ^ n‖ * ‖a‖ + ‖b ^ n‖ * ‖a - b‖ := by rw [norm_mul, norm_mul]
      _ ≤ n * ‖a - b‖ * 1 + 1 * ‖a - b‖ := by gcongr
      _ = (n + 1 : ℕ) * ‖a - b‖ := by push_cast; ring

/-- `sin n` is the imaginary part of `(e^i)^n`. -/
theorem sin_natCast_eq_im (n : ℕ) : Real.sin n = (Complex.exp Complex.I ^ n).im := by
  rw [← Complex.exp_nat_mul, ← Complex.exp_ofReal_mul_I_im, Complex.ofReal_natCast]

/-- The powers of the approximation give every sine the table uses to within `2^-52`. -/
theorem abs_sin_sub_im_le {n : ℕ} (hn : n ≤ 64) : |Real.sin n - (approxExpI ^ n).im| ≤ 1 / 2 ^ 52 := by
  have hexp : ‖Complex.exp Complex.I‖ ≤ 1 := by simpa using (Complex.norm_exp_ofReal_mul_I 1).le
  rw [sin_natCast_eq_im, ← Complex.sub_im]
  calc |(Complex.exp Complex.I ^ n - approxExpI ^ n).im|
      ≤ ‖Complex.exp Complex.I ^ n - approxExpI ^ n‖ := Complex.abs_im_le_norm _
    _ ≤ n * ‖Complex.exp Complex.I - approxExpI‖ := norm_pow_sub_pow_le hexp norm_approxExpI_le_one n
    _ ≤ 64 * (1 / 2 ^ 58) := by
      gcongr
      · exact_mod_cast hn
      · exact norm_exp_I_sub_approxExpI_le
    _ = 1 / 2 ^ 52 := by norm_num

/-! ### The table against the approximation -/

/-- Each round constant against the exact power of the Gaussian integer, in units of `2^-52`: the approximation of
`|sin (j + 1)|` lies at least one unit inside the interval that the constant stands for. -/
theorem roundConstant_scaled_bounds (j : Fin 64) :
    (2 ^ 20 * (roundConstant j).toNat + 1) * (taylorScale : ℤ) ^ (j.val + 1) ≤
      2 ^ 52 * |(scaledExpI ^ (j.val + 1)).im| ∧
    2 ^ 52 * |(scaledExpI ^ (j.val + 1)).im| + (taylorScale : ℤ) ^ (j.val + 1) <
      2 ^ 20 * ((roundConstant j).toNat + 1) * (taylorScale : ℤ) ^ (j.val + 1) := by
  decide +kernel +revert

/-- The absolute imaginary part of a power of the approximation, as a fraction of integers. -/
theorem abs_approxExpI_pow_im (n : ℕ) :
    |(approxExpI ^ n).im| = |((scaledExpI ^ n).im : ℝ)| / (taylorScale : ℝ) ^ n := by
  rw [approxExpI, div_pow, ← map_pow, ← Nat.cast_pow, Complex.div_natCast_im, ← GaussianInt.intCast_im, abs_div,
    Nat.abs_cast, Nat.cast_pow]

/-- The bounds of `roundConstant_scaled_bounds` on the approximation of `|sin (j + 1)|` itself. -/
theorem roundConstant_bounds (j : Fin 64) :
    ((roundConstant j).toNat : ℝ) / 2 ^ 32 + 1 / 2 ^ 52 ≤ |(approxExpI ^ (j.val + 1)).im| ∧
    |(approxExpI ^ (j.val + 1)).im| + 1 / 2 ^ 52 < (((roundConstant j).toNat : ℝ) + 1) / 2 ^ 32 := by
  obtain ⟨hlow, hhigh⟩ := roundConstant_scaled_bounds j
  have hpos : (0 : ℝ) < (taylorScale : ℝ) ^ (j.val + 1) := pow_pos (mod_cast taylorScale_pos) _
  rify at hlow hhigh
  rw [abs_approxExpI_pow_im, ← lt_sub_iff_add_lt, le_div_iff₀ hpos, div_lt_iff₀ hpos]
  constructor <;> linarith

/-- Settles O15: the sine is within `2^-52` of an approximation that lies further than that inside the interval whose
floor the constant is. -/
theorem roundConstantsAreTheSineFormula : Obligations.RoundConstantsAreTheSineFormula := by
  unfold Obligations.RoundConstantsAreTheSineFormula
  intro j
  have hsin : |Real.sin ((j.val : ℝ) + 1) - (approxExpI ^ (j.val + 1)).im| ≤ 1 / 2 ^ 52 := by
    have h := abs_sin_sub_im_le (n := j.val + 1) (by omega)
    rwa [Nat.cast_succ] at h
  obtain ⟨hbelow, habove⟩ := abs_le.1 ((abs_abs_sub_abs_le _ _).trans hsin)
  obtain ⟨hlow, hhigh⟩ := roundConstant_bounds j
  refine (Int.floor_eq_iff.2 ?_).symm
  push_cast
  constructor <;> linarith

/-! ### The step and power-on -/

/-- With no command issued a step is idle (R216). -/
theorem step_of_no_command {s : State} (h : s.commands = []) : step s = .next s := by
  simp only [step, h, idle]

/-- Settles O6: the state that runs the command is the one `accept` leaves. -/
theorem stepRunsTheDecodedCommand : Obligations.StepRunsTheDecodedCommand := by
  unfold Obligations.StepRunsTheDecodedCommand
  exact ⟨fun _ _ _ _ => step_of_decode, fun _ => step_of_no_command⟩

/-- Settles O9: the answer is `raise .illegalCommand`, written out. -/
theorem commandWithoutSlotIsAnswered : Obligations.CommandWithoutSlotIsAnswered := by
  unfold Obligations.CommandWithoutSlotIsAnswered
  exact fun _ _ => exec_of_not_wf

/-- Every slot at power-on holds the creation-time record (R230). -/
theorem eq_reset_of_mem_powerOn {n : Nat} {c : Context} (h : c ∈ (State.powerOn n).slots) : c = Context.reset :=
  List.eq_of_mem_replicate h

/-- The invariant holds at power-on for every number of slots R21 admits. -/
theorem powerOn_inv {n : Nat} (hpos : 1 ≤ n) (hmax : n ≤ Config.maxContexts) : (State.powerOn n).inv := by
  have hnctx : (State.powerOn n).nctx = n := List.length_replicate
  refine ⟨?_, fun c hc => ?_, rfl, List.forall_mem_nil _, List.forall_mem_nil _⟩
  · rw [hnctx]
    exact ⟨hpos, hmax⟩
  · rw [eq_reset_of_mem_powerOn hc]
    exact reset_inv

/-- Settles O11: every slot is the creation-time record, and the interface holds only an empty region. -/
theorem invariantHoldsAtPowerOn : Obligations.InvariantHoldsAtPowerOn := by
  unfold Obligations.InvariantHoldsAtPowerOn
  refine ⟨fun n hpos hmax => ⟨powerOn_inv hpos hmax, fun c hc => ?_⟩, powerOn_inv (by decide) (by decide)⟩
  rw [eq_reset_of_mem_powerOn hc]
  exact represents_reset

/-- Settles O13: below 32 the library's rotation does not reduce the amount. -/
theorem rotateIsLeftRotation : Obligations.RotateIsLeftRotation := by
  unfold Obligations.RotateIsLeftRotation
  exact fun x _ _ hlt => rotl32_eq_rotateLeft x hlt

/-! ### Fixed words, codes and messages -/

/-- Settles O1, by decoding the seventeen fixed words. -/
theorem decodesSpecWords : Obligations.DecodesSpecWords := by
  unfold Obligations.DecodesSpecWords
  decide

/-- Settles O51, by evaluating the four digests: one padded block each. -/
theorem md5OfKnownMessages : Obligations.Md5OfKnownMessages := by
  unfold Obligations.Md5OfKnownMessages
  exact ⟨by decide +kernel, by decide +kernel, by decide +kernel, by decide +kernel⟩

/-- Settles O56, by the definition of each code. -/
theorem statusCodes : Obligations.StatusCodes := by
  unfold Obligations.StatusCodes
  exact ⟨rfl, rfl, rfl, rfl, rfl⟩

end Sys2Proof.Machine
end
